-- ==== Sys2Proof/Word.lean ====
section
/-! DEFINITION. The word types: everything on the wire is a byte, everything on the request port a 32-bit word
(00_scope.md R16, 30_encoding.md R83). -/

namespace Sys2Proof

/-- A byte on the wire, a character code, a segment pattern (00_scope.md R16). -/
abbrev Byte := BitVec 8

/-- A word of the request port or of the response port (30_encoding.md R83, R87). -/
abbrev Word := BitVec 32

/-- A character position or row-plane index 0..7 (30_encoding.md R85). -/
abbrev Pos := BitVec 3

/-- An address of the chip's display RAM, 0..15 (20_memory.md R41). -/
abbrev RamAddr := BitVec 4

end Sys2Proof
end

