-- ==== Sys2Proof/Config.lean ====
section
/-! DEFINITION. What is fixed for one instance of the block: its sizes, the two decided readings of the source, the
open parameters, and the free values (00_scope.md section 3). -/

namespace Sys2Proof.Config

/-- DISPLAY_WIDTH (00_scope.md R7). -/
def displayWidth : Nat := 8

/-- RAM_SIZE, the byte slots of the chip's display RAM (R7). -/
def ramSize : Nat := 16

/-- DIGIT_ROWS: SET_DIGIT writes row-planes 0..5 (R7). -/
def digitRows : Nat := 6

/-- TEXT_ROWS: SET_TEXT writes glyph row-planes 0..6, then there is the dot row-plane 7 (R7). -/
def textRows : Nat := 7

/-- KEY_BYTES received in one key-scan read (R7). -/
def keyBytes : Nat := 4

/-- INTENSITY_MAX (R8). -/
def intensityMax : Nat := 7

/-- INTENSITY_DEFAULT, what the assembler's bare `init` encodes (R8, 30_encoding.md R93). -/
def intensityDefault : Byte := 7

/-- MAX_TEXT_LEN, the longest text the request port carries (R14). -/
def maxTextLen : Nat := 255

/-- ROT_NET, the net right rotation of ROTATE_BITS, decided as 4 (R10, 90_conflicts.md C1; log entry 15). -/
def rotNet : Nat := 4

/-- The two readings of the length that the dot position uses (R11, 90_conflicts.md C2). -/
inductive DotLenBasis where
  /-- the length as received, counting every '.' -/
  | original
  /-- the length after every '.' is removed -/
  | stripped
deriving DecidableEq, Repr

/-- DOT_LEN_BASIS, decided as ORIGINAL (R11; log entry 15). -/
def dotLenBasis : DotLenBasis := .original

/-- FONT: a partial map from codes to patterns, of which nothing may be assumed (R9). Uninterpreted (log entry 7). -/
opaque font : List (Byte × Byte)

/-- PIN_DIO, an opaque identifier no rule reads (R12; log entry 18). -/
opaque pinDio : Nat

/-- PIN_CLK, an opaque identifier no rule reads (R12; log entry 18). -/
opaque pinClk : Nat

/-- PIN_STB, an opaque identifier no rule reads (R12; log entry 18). -/
opaque pinStb : Nat

/-- T_PHASE, left OPEN; no rule depends on it (R15; log entry 18). -/
opaque tPhase : Nat

/-- T_WAIT, left OPEN; no rule depends on it (R15; log entry 18). -/
opaque tWait : Nat

/-- The free value of a DIO sample: the level the environment presents at the n-th sample when the input list of
State names none (10_state.md R24; log entry 6). Nothing constrains it. -/
opaque freeSample : Nat → Bool

end Sys2Proof.Config
end

