-- ==== Sys2Proof/Syntax.lean ====
section
/-! DEFINITION. The instructions: one constructor per row of spec/opcode_table.json. Three layers stand side by side
there (30_encoding.md, introduction): requests (32-bit words), the two transport micro-operations (no encoding) and the
wire command bytes the block sends (8 bits). -/

namespace Sys2Proof

/-- One row of the opcode table with its operands, every operand at the width the spec gives it (30_encoding.md R85). -/
inductive Instr where
  /-- INIT (41_command_protocol.md R121) -/
  | init (intensity : Byte)
  /-- SEND_COMMAND (R115) -/
  | sendCommand (cmd : Byte)
  /-- SEND_DATA (R117) -/
  | sendData (address : RamAddr) (data : Byte)
  /-- SET_LED (42_display_encoder.md R133) -/
  | setLed (position : Pos) (color : Byte)
  /-- RENDER_CHAR (R135) -/
  | renderChar (position : Pos) (pattern : Byte) (dot : Bool)
  /-- SET_DIGIT (R137) -/
  | setDigit (position : Pos) (code : Byte) (dot : Bool)
  /-- SET_TEXT (R140): the text's character codes, first character first -/
  | setText (text : List Byte)
  /-- GET_BUTTONS (43_key_scanner.md R161) -/
  | getButtons
  /-- GET_BUTTONS64 (R162) -/
  | getButtons64
  /-- ROTATE_BITS (42_display_encoder.md R131) -/
  | rotateBits (x : Byte)
  /-- RESERVED, the row of opcodes 0xA and 0xB: the whole request word (30_encoding.md R89) -/
  | reservedAB (word : Word)
  /-- RESERVED, the row of opcodes 0xC to 0xF: the whole request word (R89) -/
  | reservedCF (word : Word)
  /-- SEND_BYTE, a micro-operation with no encoding (40_transport.md R101) -/
  | sendByte (v : Byte)
  /-- RECEIVE_BYTE, a micro-operation with no encoding (R104) -/
  | receiveByte
  /-- MODE_AUTO, wire command 0x40 (30_encoding.md R73) -/
  | modeAuto
  /-- MODE_FIXED, wire command 0x44 (R74) -/
  | modeFixed
  /-- KEY_SCAN, wire command 0x42 (R75) -/
  | keyScan
  /-- DISPLAY_ON, wire commands 0x88 to 0x8F (R76) -/
  | displayOn (level : BitVec 3)
  /-- ADDR, wire commands 0xC0 to 0xCF (R77) -/
  | addr (a : RamAddr)
deriving DecidableEq, Repr

end Sys2Proof
end

