-- ==== Sys2Proof/WellFormed.lean ====
section
/-! DEFINITION. Which instruction terms stand for something the hardware has. Most operands are bounded by their
type; what is left is the length of a text and the opcode a RESERVED word must carry. -/

namespace Sys2Proof

/-- The OP field of a request word, bits [3:0] (30_encoding.md R84). -/
def opOf (word : Word) : BitVec 4 := word.extractLsb' 0 4

/-- A text fits the request port: 0 to 255 codes (00_scope.md R14). -/
def textFits (text : List Byte) : Bool := decide (text.length ≤ Config.maxTextLen)

/-- The word is one of the first RESERVED row, opcodes 0xA and 0xB (30_encoding.md R89). -/
def isReservedAB (word : Word) : Bool := opOf word == 0xA#4 || opOf word == 0xB#4

/-- The word is one of the second RESERVED row, opcodes 0xC to 0xF (30_encoding.md R89). -/
def isReservedCF (word : Word) : Bool := decide (0xC#4 ≤ opOf word)

/-- Well-formedness of an instruction. -/
def Instr.wellFormed : Instr → Bool
  | .setText text => textFits text
  | .reservedAB word => isReservedAB word
  | .reservedCF word => isReservedCF word
  | .init _ => true
  | .sendCommand _ => true
  | .sendData _ _ => true
  | .setLed _ _ => true
  | .renderChar _ _ _ => true
  | .setDigit _ _ _ => true
  | .getButtons => true
  | .getButtons64 => true
  | .rotateBits _ => true
  | .sendByte _ => true
  | .receiveByte => true
  | .modeAuto => true
  | .modeFixed => true
  | .keyScan => true
  | .displayOn _ => true
  | .addr _ => true

end Sys2Proof
end

