-- ==== Sys2Proof/Decode.lean ====
section
/-! DEFINITION. From bits to an instruction or a rejection by name, and back. Requests are words of the request port
(30_encoding.md R84 to R91); wire commands are single bytes (R73 to R77); micro-operations have no encoding
(92_eei_decisions.md D26). -/

namespace Sys2Proof

/-- A request as the port carries it: the request word and, for SET_TEXT, its text words (30_encoding.md R86). -/
structure Request where
  word : Word
  text : List Word
deriving DecidableEq, Repr

/-- The bits of one instruction, in the layer it belongs to. -/
inductive Code where
  /-- a request on the request port -/
  | request (r : Request)
  /-- a wire command byte -/
  | wire (b : Byte)
deriving DecidableEq, Repr

/-- Why bits are no instruction. -/
inductive Reject where
  /-- RSV, bits [31:20], is not 0 (30_encoding.md R89) -/
  | reservedBits
  /-- a field the opcode does not use is not 0 (R89) -/
  | unusedField
  /-- a byte lane of the last text word past the text's length is not 0 (R86, R89) -/
  | textPadding
  /-- not ceil(LEN / 4) text words; the port never delivers such a request (R91) -/
  | textWordCount
  /-- a byte that is no wire command of the table (R79) -/
  | notACommandByte
deriving DecidableEq, Repr

/-- POS, bits [6:4] (30_encoding.md R84). -/
def posOf (word : Word) : Pos := word.extractLsb' 4 3

/-- DOT, bit [7] (R84). -/
def dotOf (word : Word) : Bool := word.getLsbD 7

/-- BYTE, bits [15:8] (R84). -/
def byteOf (word : Word) : Byte := word.extractLsb' 8 8

/-- ADDR, bits [19:16] (R84). -/
def addrOf (word : Word) : RamAddr := word.extractLsb' 16 4

/-- RSV, bits [31:20] (R84). -/
def rsvOf (word : Word) : BitVec 12 := word.extractLsb' 20 12

/-- How many text words follow a request word: ceil(BYTE / 4) for SET_TEXT, none otherwise (R91). -/
def textWordsOf (word : Word) : Nat :=
  if opOf word = 0x6#4 then ((byteOf word).toNat + 3) / 4 else 0

/-- The four character codes of a text word, lowest lane first (R86). -/
def lanesOf (word : Word) : List Byte :=
  [word.extractLsb' 0 8, word.extractLsb' 8 8, word.extractLsb' 16 8, word.extractLsb' 24 8]

/-- A text word from its four lanes (R86). -/
def wordOfLanes (c0 c1 c2 c3 : Byte) : Word := c3 ++ c2 ++ c1 ++ c0

/-- The text words of a text, the last one filled up with zero lanes (R86). -/
def packText : List Byte → List Word
  | [] => []
  | [c0] => [wordOfLanes c0 0 0 0]
  | [c0, c1] => [wordOfLanes c0 c1 0 0]
  | [c0, c1, c2] => [wordOfLanes c0 c1 c2 0]
  | c0 :: c1 :: c2 :: c3 :: rest => wordOfLanes c0 c1 c2 c3 :: packText rest

/-- A request word from its fields (R84). -/
def requestWord (op : BitVec 4) (pos : Pos) (dot : Bool) (byte : Byte) (address : RamAddr) : Word :=
  (0#12 : BitVec 12) ++ address ++ byte ++ BitVec.ofBool dot ++ pos ++ op

/-- Accept an instruction whose POS, DOT and ADDR fields must all be 0. -/
def onlyByte (word : Word) (i : Instr) : Except Reject Instr :=
  if posOf word = 0 ∧ dotOf word = false ∧ addrOf word = 0 then .ok i else .error .unusedField

/-- Accept an instruction that uses no field but OP. -/
def onlyOp (word : Word) (i : Instr) : Except Reject Instr :=
  if byteOf word = 0 then onlyByte word i else .error .unusedField

/-- SET_TEXT from its words: the first LEN lanes are the text, the others must be 0 (R86, R89). -/
def decodeText (r : Request) : Except Reject Instr :=
  if r.text.length ≠ textWordsOf r.word then .error .textWordCount
  else
    let lanes := r.text.flatMap lanesOf
    let len := (byteOf r.word).toNat
    if (lanes.drop len).all (fun b => b == 0) then onlyByte r.word (.setText (lanes.take len))
    else .error .textPadding

/-- Decode a request of opcode 0x0..0x9 whose RSV field is 0. -/
def decodeOp (r : Request) : Except Reject Instr :=
  let w := r.word
  match (opOf w).toNat with
  | 0 => onlyByte w (.init (byteOf w))
  | 1 => onlyByte w (.sendCommand (byteOf w))
  | 2 => if posOf w = 0 ∧ dotOf w = false then .ok (.sendData (addrOf w) (byteOf w)) else .error .unusedField
  | 3 => if dotOf w = false ∧ addrOf w = 0 then .ok (.setLed (posOf w) (byteOf w)) else .error .unusedField
  | 4 => if addrOf w = 0 then .ok (.renderChar (posOf w) (byteOf w) (dotOf w)) else .error .unusedField
  | 5 => if addrOf w = 0 then .ok (.setDigit (posOf w) (byteOf w) (dotOf w)) else .error .unusedField
  | 6 => decodeText r
  | 7 => onlyOp w .getButtons
  | 8 => onlyOp w .getButtons64
  | 9 => onlyByte w (.rotateBits (byteOf w))
  | 10 => .ok (.reservedAB w)
  | 11 => .ok (.reservedAB w)
  | _ => .ok (.reservedCF w)

/-- Decode a request (R84, R89, R91). The RESERVED rows are decided by OP alone; every other row needs RSV = 0; only
SET_TEXT has text words. -/
def decodeRequest (r : Request) : Except Reject Instr :=
  if isReservedAB r.word ∨ isReservedCF r.word then
    if r.text = [] then decodeOp r else .error .textWordCount
  else if rsvOf r.word ≠ 0 then .error .reservedBits
  else if opOf r.word ≠ 0x6#4 ∧ r.text ≠ [] then .error .textWordCount
  else decodeOp r

/-- Decode a wire command byte (R73 to R77, R79). -/
def decodeWire (b : Byte) : Except Reject Instr :=
  if b = 0x40#8 then .ok .modeAuto
  else if b = 0x44#8 then .ok .modeFixed
  else if b = 0x42#8 then .ok .keyScan
  else if b.extractLsb' 3 5 = 0b10001#5 then .ok (.displayOn (b.extractLsb' 0 3))
  else if b.extractLsb' 4 4 = 0b1100#4 then .ok (.addr (b.extractLsb' 0 4))
  else .error .notACommandByte

/-- The decoder. -/
def decode : Code → Except Reject Instr
  | .request r => decodeRequest r
  | .wire b => decodeWire b

/-! ### The encoder, written from the tables of R79 and R84 -/

/-- The byte of DISPLAY_ON(level), `0x80 | 8 | level` (30_encoding.md R76). -/
def displayOnByte (level : BitVec 3) : Byte := 0x88#8 ||| level.setWidth 8

/-- The byte of ADDR(a), `0xC0 | a` (R77). -/
def addrByte (a : RamAddr) : Byte := 0xC0#8 ||| a.setWidth 8

/-- A request of one word. -/
def oneWord (op : BitVec 4) (pos : Pos) (dot : Bool) (byte : Byte) (address : RamAddr) : Option Code :=
  some (.request ⟨requestWord op pos dot byte address, []⟩)

/-- The bits of an instruction, or none for the two micro-operations, which have no encoding (R79, R84, R86). -/
def encode : Instr → Option Code
  | .init b => oneWord 0x0 0 false b 0
  | .sendCommand b => oneWord 0x1 0 false b 0
  | .sendData a d => oneWord 0x2 0 false d a
  | .setLed p c => oneWord 0x3 p false c 0
  | .renderChar p x dot => oneWord 0x4 p dot x 0
  | .setDigit p c dot => oneWord 0x5 p dot c 0
  | .setText t => some (.request ⟨requestWord 0x6 0 false (BitVec.ofNat 8 t.length) 0, packText t⟩)
  | .getButtons => oneWord 0x7 0 false 0 0
  | .getButtons64 => oneWord 0x8 0 false 0 0
  | .rotateBits x => oneWord 0x9 0 false x 0
  | .reservedAB w => some (.request ⟨w, []⟩)
  | .reservedCF w => some (.request ⟨w, []⟩)
  | .sendByte _ => none
  | .receiveByte => none
  | .modeAuto => some (.wire 0x40)
  | .modeFixed => some (.wire 0x44)
  | .keyScan => some (.wire 0x42)
  | .displayOn l => some (.wire (displayOnByte l))
  | .addr a => some (.wire (addrByte a))

/-! ### Bits numbered as the opcode table numbers them -/

/-- The request whose bits are `w`, bit 0 the least significant bit of the request word and each text word's bits
counting on from the word before it. -/
def requestOfNat (w : Nat) : Request :=
  let word := BitVec.ofNat 32 w
  ⟨word, (List.range (textWordsOf word)).map (fun k => BitVec.ofNat 32 (w >>> (32 * (k + 1))))⟩

/-- The bits of an opcode-table row: a row of 8 bits is a wire command, every other row a request. -/
def codeOfTable (nbits w : Nat) : Code :=
  if nbits ≤ 8 then .wire (BitVec.ofNat 8 w) else .request (requestOfNat w)

/-- The instruction the decoder reads from an opcode-table row's bits. -/
def decodeTableWord (nbits w : Nat) : Option Instr :=
  match decode (codeOfTable nbits w) with
  | .ok i => some i
  | .error _ => none

end Sys2Proof
end

