-- ==== Sys2Proof/Machine/State.lean ====
section
/-! DEFINITION. The state of the block (10_state.md R20 to R36), the inputs of its environment, and the reasons a step
can stop. Plain data throughout. -/

namespace Sys2Proof.Machine

/-- The three pins (10_state.md R22). -/
inductive Pin where
  | stb
  | clk
  | dio
deriving DecidableEq, Repr

/-- The direction of a pin (R22). -/
inductive Dir where
  /-- UNCONF: not configured, not driven -/
  | unconf
  /-- OUT: driven by the block -/
  | out
  /-- IN_PU: read by the block, pull-up enabled -/
  | inPu
deriving DecidableEq, Repr

/-- The level a pin is driven to; `x` is the unknown level (R22, 00_scope.md R13). -/
inductive Level where
  | lo
  | hi
  | x
deriving DecidableEq, Repr

/-- DIR[p] and LVL[p] of one pin (R22). -/
structure PinState where
  dir : Dir
  lvl : Level
deriving DecidableEq, Repr

/-- An event of TRACE (R26). A driven or sampled level is a bit: `true` is 1. -/
inductive Event where
  /-- `Cfg(p, d)` -/
  | cfg (p : Pin) (d : Dir)
  /-- `Wr(p, v)` -/
  | wr (p : Pin) (v : Bool)
  /-- `Rd(p, v)` -/
  | rd (p : Pin) (v : Bool)
  /-- `Diag(DOT_DROPPED)` -/
  | dotDropped
deriving DecidableEq, Repr

/-- SEQ (R30). -/
inductive Seq where
  | idle
  | busy
deriving DecidableEq, Repr

/-- The status codes the block produces (60_exceptions.md R170). -/
inductive Status where
  | ok
  | unknownChar
  | illegalRequest
  | notInitialized
deriving DecidableEq, Repr

/-- An entry of FAULT_LOG: the request, the status code, the info (10_state.md R32). -/
structure FaultEntry where
  request : Request
  code : BitVec 4
  info : Word
deriving DecidableEq, Repr

/-- The state. Registers 0 to 6 of 10_state.md section 2, the pins, the latch, the lists, the transport's shift value
and counter, the two port channels, the bound font; then the model's own inputs. -/
structure State where
  /-- DIR and LVL of STB (R22) -/
  stb : PinState
  /-- DIR and LVL of CLK (R22) -/
  clk : PinState
  /-- DIR and LVL of DIO (R22) -/
  dio : PinState
  /-- INTENSITY (R27) -/
  intensity : BitVec 3
  /-- POWER_ON (R28) -/
  powerOn : Bool
  /-- INITIALIZED (R29) -/
  initialized : Bool
  /-- SEQ (R30) -/
  seq : Seq
  /-- REQ, the request latch (R30) -/
  req : Request
  /-- RSP_STATUS (R31) -/
  rspStatus : BitVec 4
  /-- RSP_RESULT (R31) -/
  rspResult : Word
  /-- RSP_DIAG (R31) -/
  rspDiag : Bool
  /-- FAULT_LOG, oldest first (R32) -/
  faultLog : List FaultEntry
  /-- TRACE as it is held, newest event first (R26); read it oldest first through `State.trace` -/
  events : List Event
  /-- the transport's 8-bit shift value (R33) -/
  shift : Byte
  /-- the transport's bit counter 0..7 (R33) -/
  bitCount : BitVec 3
  /-- words presented on the request port and not yet accepted, oldest first (30_encoding.md R83; log entry 2) -/
  port : List Word
  /-- words returned on the response port, oldest first, two a request (R83, R87; log entry 16) -/
  rspPort : List Word
  /-- FONT as the host bound it: no step writes it (00_scope.md R9; log entry 7) -/
  font : List (Byte × Byte)
  /-- the model's own: levels the environment will present on DIO, oldest first (R24; log entry 6) -/
  dioLevels : List Bool
  /-- the model's own: how many samples have been taken, the argument of the free value (log entry 6) -/
  sampleCount : Nat
  /-- the model's own: when the host's reset lands (70_reset_and_hazards.md R191; log entry 11) -/
  resetIn : Option Nat
  /-- the model's own: wire command bytes handed to the transport, oldest first (log entry 8) -/
  wire : List Byte
deriving DecidableEq, Repr

/-- TRACE: the events the block has produced since reset, oldest first (R26). -/
def State.trace (s : State) : List Event := s.events.reverse

/-- Why a step stops with a fault. The block's own request faults are not here: they are next states
(60_exceptions.md R177). -/
inductive Fault where
  /-- A pin was written while the block does not drive it (70_reset_and_hazards.md R199). Raised by `pinWrite`. Safe:
  the spec derives that no request does it, and asks that a check be a fault of the model. -/
  | pinNotOutput (p : Pin)
  /-- A pin was sampled while it is not an input (R199). Raised by `pinRead`. Safe, for the same reason. -/
  | pinNotInput (p : Pin)
  /-- The dot position lies past the document's table (42_display_encoder.md R141): possible under the STRIPPED basis
  only. Raised by `setTextBody`. Safe: with DOT_LEN_BASIS = ORIGINAL no text reaches it. -/
  | dotBeyondTable
deriving DecidableEq, Repr

/-- Why a step is refused. -/
inductive Refusal where
  /-- The instruction has no meaning in the model yet. Raised by no arm of `exec`. Safe. -/
  | notModelled (mnemonic : String)
  /-- A byte handed to the transport is none of the wire commands of the table (30_encoding.md R79). Raised by
  `step` on the model's own field `wire`; no request hands the transport such a byte. Safe. -/
  | notAWireCommand (b : Byte)
deriving DecidableEq, Repr

/-- A pin after reset: not configured, not driven (10_state.md R36). -/
def PinState.reset : PinState := ⟨.unconf, .x⟩

/-- The machine right after reset (R36, 70_reset_and_hazards.md R190). INTENSITY, REQ, the shift value and the counter
are unspecified by the spec: their values here are the model's (log entries 3, 4, 5). -/
def State.reset : State where
  stb := .reset
  clk := .reset
  dio := .reset
  intensity := 0
  powerOn := false
  initialized := false
  seq := .idle
  req := ⟨0, []⟩
  rspStatus := 0
  rspResult := 0
  rspDiag := false
  faultLog := []
  events := []
  shift := 0
  bitCount := 0
  port := []
  rspPort := []
  font := Config.font
  dioLevels := []
  sampleCount := 0
  resetIn := none
  wire := []

end Sys2Proof.Machine
end

