-- ==== Sys2Proof/Machine/Flags.lean ====
section
/-! DEFINITION. The block has no condition codes (10_state.md R25); what stands in their place is the status code of a
response, its diagnostic bit, and the two response words made of them (30_encoding.md R87, 60_exceptions.md R170). -/

namespace Sys2Proof.Machine

/-- RSP_STATUS of a status (60_exceptions.md R170). -/
def statusCode : Status → BitVec 4
  | .ok => 0
  | .unknownChar => 1
  | .illegalRequest => 2
  | .notInitialized => 3

/-- Word 0 of a response: `RSP_DIAG << 4 | RSP_STATUS`, bits [31:5] zero (30_encoding.md R87). -/
def responseWord0 (status : BitVec 4) (diag : Bool) : Word :=
  ((BitVec.ofBool diag).setWidth 32 <<< 4) ||| status.setWidth 32

/-- The two words of a response (R87). -/
def responseWords (status : BitVec 4) (result : Word) (diag : Bool) : List Word :=
  [responseWord0 status diag, result]

/-- The level a written bit drives (00_scope.md R19). -/
def levelOf (v : Bool) : Level := if v then .hi else .lo

end Sys2Proof.Machine
end

