-- ==== Sys2Proof/Machine/Operands.lean ====
section
/-! DEFINITION. What the requests compute from their operands before anything reaches a pin: addresses, the clamp, the
rotation, font lookup, the text layout, the dot byte, the row bytes, and the two ways to combine key bytes. -/

namespace Sys2Proof.Machine

/-- The code of ' ' (00_scope.md R18). -/
def spaceCode : Byte := 0x20

/-- The code of '.' (R18). -/
def dotCode : Byte := 0x2E

/-- `clamp(intensity, 0, 7)` as a 3-bit level; intensity is unsigned (41_command_protocol.md R118). -/
def clampLevel (intensity : Byte) : BitVec 3 := BitVec.ofNat 3 (min intensity.toNat Config.intensityMax)

/-- The odd address of a position's LED, `2 * position + 1` (42_display_encoder.md R133). -/
def ledAddress (position : Pos) : RamAddr := position.setWidth 4 * 2 + 1

/-- The even address of a row-plane, `2 * p` (R134). -/
def rowAddress (p : Pos) : RamAddr := p.setWidth 4 * 2

/-- A pattern with bit 7 forced on when `dot` is set (R134). -/
def withDot (pattern : Byte) (dot : Bool) : Byte := if dot then pattern ||| 0x80 else pattern

/-- Right rotation by `n` within 8 bits (R130). -/
def rotBy (n : Nat) (x : Byte) : Byte := (x >>> n) ||| (x <<< (8 - n))

/-- `Rot(x)` (R130). -/
def rot (x : Byte) : Byte := rotBy Config.rotNet x

/-- FONT(c): the pattern of the first pair with this code, none for an unknown code (00_scope.md R9). -/
def lookup (font : List (Byte × Byte)) (c : Byte) : Option Byte :=
  match font with
  | [] => none
  | (code, pattern) :: rest => if code = c then some pattern else lookup rest c

/-- Bit `r` of a pattern, moved to bit `q` (42_display_encoder.md R137, R144). -/
def gatherBit (pattern : Byte) (r q : Nat) : Byte := if pattern.getLsbD r then 1#8 <<< q else 0

/-- The row byte SET_DIGIT writes to row-plane r before the dot (R137). -/
def digitRow (pattern : Byte) (r : Nat) (position : Pos) : Byte := gatherBit pattern r position.toNat

/-- What the scan for a '.' gives (R141, R142). -/
inductive DotResult where
  /-- no '.' in the text -/
  | noDot
  /-- the dot byte before rotation -/
  | placed (b : Byte)
  /-- realPos is negative: the dot is dropped -/
  | dropped
  /-- realPos is past the table (STRIPPED basis only) -/
  | beyond
deriving DecidableEq, Repr

/-- The text without any '.' (R147). -/
def removeDots (t : List Byte) : List Byte := t.filter (fun c => c != dotCode)

/-- L0, the length realPos uses (00_scope.md R11). -/
def dotLength (basis : Config.DotLenBasis) (t : List Byte) : Nat :=
  match basis with
  | .original => t.length
  | .stripped => (removeDots t).length

/-- The dot byte for a dot position (42_display_encoder.md R141). -/
def dotByteAt (realPos : Int) : DotResult :=
  if realPos < 0 then .dropped
  else if realPos ≤ 3 then .placed (8#8 >>> realPos.toNat)
  else if realPos ≤ 7 then .placed (128#8 >>> (realPos - 4).toNat)
  else .beyond

/-- `DotByte(t)` under a basis (R141). -/
def dotByteOn (basis : Config.DotLenBasis) (t : List Byte) : DotResult :=
  match t.findIdx? (fun c => c == dotCode) with
  | none => .noDot
  | some d => dotByteAt ((d : Int) + (8 - (dotLength basis t : Int)))

/-- `DotByte(t)` (R141). -/
def dotByte (t : List Byte) : DotResult := dotByteOn Config.dotLenBasis t

/-- `Layout(u)`: truncate to 8, reverse, pad on the right with spaces, swap the halves (R143). -/
def layout (u : List Byte) : List Byte :=
  let reversed := (u.take Config.displayWidth).reverse
  let padded := reversed ++ List.replicate (Config.displayWidth - reversed.length) spaceCode
  padded.drop 4 ++ padded.take 4

/-- The part of `Row(S, r)` from position `q` on, or the first unknown code (R144, R145). -/
def rowFrom (font : List (Byte × Byte)) (r : Nat) : List Byte → Nat → Except Byte Byte
  | [], _ => .ok 0
  | c :: rest, q =>
    if c = spaceCode then rowFrom font r rest (q + 1)
    else
      match lookup font c with
      | none => .error c
      | some pattern =>
        match rowFrom font r rest (q + 1) with
        | .error e => .error e
        | .ok row => .ok (gatherBit pattern r q ||| row)

/-- `Row(S, r)` (R144). -/
def rowByte (font : List (Byte × Byte)) (s : List Byte) (r : Nat) : Except Byte Byte := rowFrom font r s 0

/-- One step of the receiving accumulator, `(acc >> 1) | (b << 7)` (40_transport.md R104). -/
def shiftIn (acc : Byte) (b : Bool) : Byte := (acc >>> 1) ||| (if b then 0x80 else 0)

/-- GET_BUTTONS: the overlapping OR (43_key_scanner.md R161). -/
def combineOverlap (k0 k1 k2 k3 : Byte) : Word :=
  k0.setWidth 32 ||| (k1.setWidth 32 <<< 1) ||| (k2.setWidth 32 <<< 2) ||| (k3.setWidth 32 <<< 3)

/-- GET_BUTTONS64: the sum of `k_i * 256^i` (R162). -/
def combineConcat (k0 k1 k2 k3 : Byte) : Word :=
  k0.setWidth 32 + k1.setWidth 32 * 256#32 + k2.setWidth 32 * 65536#32 + k3.setWidth 32 * 16777216#32

end Sys2Proof.Machine
end

