-- ==== Sys2Proof/Machine/Ops.lean ====
section
/-! DEFINITION. The shared operations: the pin primitives and their events (00_scope.md R19), the two transport
micro-operations (40_transport.md), framing and the frame helpers (41_command_protocol.md, 43_key_scanner.md), the end
of a request and the entry of a fault (60_exceptions.md R171), and the chip RAM as the observer holds it. -/

namespace Sys2Proof.Machine

/-! ### Pins and events -/

/-- DIR[p] and LVL[p] (10_state.md R22). -/
def State.pin (s : State) : Pin → PinState
  | .stb => s.stb
  | .clk => s.clk
  | .dio => s.dio

/-- The state with DIR[p] and LVL[p] replaced. -/
def setPin (p : Pin) (v : PinState) (s : State) : State :=
  match p with
  | .stb => { s with stb := v }
  | .clk => { s with clk := v }
  | .dio => { s with dio := v }

/-- Append an event to TRACE (R26). -/
def emit (e : Event) (s : State) : State := { s with events := e :: s.events }

/-- What can end an operation early: a fault of the block, raised with the state it is raised in, or a fault of the
model. -/
inductive Stop where
  /-- `raise Fault(code, info)` (00_scope.md R19) -/
  | raised (status : Status) (info : Word) (s : State)
  /-- a fault of the model -/
  | model (f : Fault)
deriving DecidableEq, Repr

/-- The result of an operation. -/
abbrev Res (α : Type) := Except Stop α

/-- `raise Fault(code, info)` (R19, 60_exceptions.md R170). -/
def raise {α : Type} (status : Status) (info : Word) (s : State) : Res α := .error (.raised status info s)

/-- `PinCfg(p, d)`: the level becomes X in either direction (00_scope.md R13, R19). -/
def pinCfg (p : Pin) (d : Dir) (s : State) : State := emit (.cfg p d) (setPin p ⟨d, .x⟩ s)

/-- `PinWrite(p, v)`; the block must drive the pin (R19, 70_reset_and_hazards.md R199). -/
def pinWrite (p : Pin) (v : Bool) (s : State) : Res State :=
  if (s.pin p).dir = .out then .ok (emit (.wr p v) (setPin p ⟨.out, levelOf v⟩ s)) else .error (.model (.pinNotOutput p))

/-- The level the environment presents at the next sample: the next input, or the free value (10_state.md R24;
log entry 6). -/
def nextLevel (s : State) : Bool :=
  match s.dioLevels with
  | [] => Config.freeSample s.sampleCount
  | v :: _ => v

/-- The state after one sample has been taken. -/
def takeLevel (s : State) : State := { s with dioLevels := s.dioLevels.drop 1, sampleCount := s.sampleCount + 1 }

/-- `PinRead(p)`: a draw; the pin must be an input (00_scope.md R19, 70_reset_and_hazards.md R199). -/
def pinRead (p : Pin) (s : State) : Res (Bool × State) :=
  if (s.pin p).dir = .inPu then .ok (nextLevel s, emit (.rd p (nextLevel s)) (takeLevel s))
  else .error (.model (.pinNotInput p))

/-! ### The transport -/

/-- `BeginFrame()` (40_transport.md R100). -/
def beginFrame (s : State) : Res State := pinWrite .stb false s

/-- `EndFrame()` (R100). -/
def endFrame (s : State) : Res State := pinWrite .stb true s

/-- One sent bit-cell (30_encoding.md R70, 40_transport.md R101). -/
def sendBit (v : Byte) (s : State) (i : Nat) : Res State := do
  let s ← pinWrite .clk false { s with bitCount := BitVec.ofNat 3 i }
  let s ← pinWrite .dio (v.getLsbD i) s
  pinWrite .clk true s

/-- `SendByte(v)`, least significant bit first (R101). The shift value holds the byte (log entry 5). -/
def sendByte (v : Byte) (s : State) : Res State := (List.range 8).foldlM (sendBit v) { s with shift := v }

/-- One received bit-cell: clock low, sample, shift in, clock high (R104, R106). -/
def receiveBit (s : State) (i : Nat) : Res State := do
  let s ← pinWrite .clk false { s with bitCount := BitVec.ofNat 3 i }
  let (b, s) ← pinRead .dio s
  pinWrite .clk true { s with shift := shiftIn s.shift b }

/-- `ReceiveByte()`: the byte stands in the shift value (R104). -/
def receiveByte (s : State) : Res State := do
  let s ← (List.range 8).foldlM receiveBit { pinCfg .dio .inPu s with shift := 0 }
  pure (pinCfg .dio .out s)

/-! ### Frames -/

/-- MODE_AUTO (30_encoding.md R73). -/
def modeAutoByte : Byte := 0x40

/-- MODE_FIXED (R74). -/
def modeFixedByte : Byte := 0x44

/-- KEY_SCAN (R75). -/
def keyScanByte : Byte := 0x42

/-- Open a frame with its command byte (30_encoding.md R71). -/
def openFrame (c : Byte) (s : State) : Res State := do
  let s ← beginFrame s
  sendByte c s

/-- `Cmd(c)`: a frame of one command byte (41_command_protocol.md R114). -/
def cmd (c : Byte) (s : State) : Res State := do
  let s ← openFrame c s
  endFrame s

/-- `WriteData(a, d)`: the MODE_FIXED command frame, then the write frame (R116). -/
def writeData (a : RamAddr) (d : Byte) (s : State) : Res State := do
  let s ← cmd modeFixedByte s
  let s ← openFrame (addrByte a) s
  let s ← sendByte d s
  endFrame s

/-- `RenderChar(p, x, dot)` (42_display_encoder.md R134). -/
def renderChar (p : Pos) (x : Byte) (dot : Bool) (s : State) : Res State := writeData (rowAddress p) (withDot x dot) s

/-- `KeyFrame()`: the key-scan command and four received bytes in one frame (43_key_scanner.md R160). -/
def keyFrame (s : State) : Res (Byte × Byte × Byte × Byte × State) := do
  let s ← openFrame keyScanByte s
  let s0 ← receiveByte s
  let s1 ← receiveByte s0
  let s2 ← receiveByte s1
  let s3 ← receiveByte s2
  let s ← endFrame s3
  pure (s0.shift, s1.shift, s2.shift, s3.shift, s)

/-- `Lookup(c)` (42_display_encoder.md R136, 60_exceptions.md R174). -/
def lookupOrRaise (c : Byte) (s : State) : Res Byte :=
  match lookup s.font c with
  | some pattern => .ok pattern
  | none => raise .unknownChar (c.setWidth 32) s

/-! ### The request envelope (60_exceptions.md R171) -/

/-- What a request's rule gives when it ends without a fault: RSP_RESULT and RSP_DIAG. -/
structure Reply where
  result : Word := 0
  diag : Bool := false
deriving DecidableEq, Repr

/-- The end of a request: the response registers, the two response words, SEQ to IDLE (10_state.md R30, R31,
30_encoding.md R83, R87). -/
def endRequest (status : BitVec 4) (r : Reply) (s : State) : State :=
  { s with
    rspStatus := status
    rspResult := r.result
    rspDiag := r.diag
    rspPort := s.rspPort ++ responseWords status r.result r.diag
    seq := .idle }

/-- TAKING A FAULT, `Fail(code, info)`: FAULT_LOG gains (REQ, code, info), RSP_RESULT and RSP_DIAG become 0, and the
request ends (60_exceptions.md R171, R177). There is no return from it: the block waits for the next request (R179). -/
def fail (status : Status) (info : Word) (s : State) : State :=
  endRequest (statusCode status) {} { s with faultLog := s.faultLog ++ [⟨s.req, statusCode status, info⟩] }

/-- What a request body's result means for the machine (R171). -/
def concludeRequest (r : Res (Reply × State)) : Host.Outcome State Fault Refusal :=
  match r with
  | .ok (reply, s) => .next (endRequest (statusCode .ok) reply s)
  | .error (.raised status info s) => .next (fail status info s)
  | .error (.model f) => .fault f

/-- A request that needs no initialized block: INIT and ROTATE_BITS (R171, R173). -/
def openRequest (body : State → Res (Reply × State)) (s : State) : Host.Outcome State Fault Refusal :=
  concludeRequest (body s)

/-- A request that faults with NOT_INITIALIZED while INITIALIZED is 0, before any event; the info is the opcode
(R170, R171, R173; log entry 17). -/
def guardedRequest (op : BitVec 4) (body : State → Res (Reply × State)) (s : State) :
    Host.Outcome State Fault Refusal :=
  if s.initialized then concludeRequest (body s) else .next (fail .notInitialized (op.setWidth 32) s)

/-- A request body that only moves pins: its result and diagnostic are 0. -/
def plain (r : Res State) : Res (Reply × State) :=
  match r with
  | .ok s => .ok ({}, s)
  | .error e => .error e

/-- A transport operation run outside a request: it ends no request and writes no response register. -/
def concludeMicro (r : Res State) : Host.Outcome State Fault Refusal :=
  match r with
  | .ok s => .next s
  | .error (.raised status info s) => .next (fail status info s)
  | .error (.model f) => .fault f

/-! ### The chip's display RAM, as the observer holds it (20_memory.md R61) -/

/-- Bytes by address, addresses strictly rising; an unlisted address reads as UNKNOWN (log entry 22). -/
abbrev Memory := List Host.Cell

/-- The canonical form, within the 16 addresses of the RAM (R41). -/
abbrev Memory.wf (m : Memory) : Prop :=
  m.Pairwise (fun x y => x.1 < y.1) ∧ ∀ x ∈ m, x.1 < Config.ramSize

/-- A byte of the RAM, `none` for UNKNOWN. -/
def readByte : Memory → Nat → Option Byte
  | [], _ => none
  | (b, v) :: rest, a => if a = b then some v else readByte rest a

/-- The memory with an address unlisted. -/
def forgetByte : Memory → Nat → Memory
  | [], _ => []
  | (b, v) :: rest, a => if a = b then rest else (b, v) :: forgetByte rest a

/-- The memory with a byte listed at its place. -/
def putByte : Memory → Nat → Byte → Memory
  | [], a, v => [(a, v)]
  | (b, w) :: rest, a, v =>
    if a < b then (a, v) :: (b, w) :: rest
    else if a = b then (a, v) :: rest
    else (b, w) :: putByte rest a v

/-- `RAM[a] <- d`, where d may be UNKNOWN (R63, R65). -/
def writeByte (m : Memory) (a : RamAddr) (d : Option Byte) : Memory :=
  match d with
  | none => forgetByte m a.toNat
  | some v => putByte m a.toNat v

end Sys2Proof.Machine
end

