-- ==== Sys2Proof/Machine/Command.lean ====
section
/-! DEFINITION. The command protocol: INIT, SEND_COMMAND, SEND_DATA (41_command_protocol.md), and the wire commands as
the block sends them (30_encoding.md R73 to R77; log entry 8). -/

namespace Sys2Proof.Machine

/-- SEND_COMMAND (R115). -/
def execSendCommand (c : Byte) (s : State) : Host.Outcome State Fault Refusal :=
  guardedRequest 0x1 (fun s => plain (cmd c s)) s

/-- SEND_DATA (R117). -/
def execSendData (a : RamAddr) (d : Byte) (s : State) : Host.Outcome State Fault Refusal :=
  guardedRequest 0x2 (fun s => plain (writeData a d s)) s

/-- INIT's pin steps before any frame: DIO, CLK, STB become outputs, then STB and CLK are driven high (R120). -/
def configurePins (s : State) : Res State := do
  let s ← pinWrite .stb true (pinCfg .stb .out (pinCfg .clk .out (pinCfg .dio .out s)))
  pinWrite .clk true s

/-- INIT's clearing frame: ADDR(0), then a zero byte for each of the 16 RAM slots (R121). -/
def clearFrame (s : State) : Res State := do
  let s ← openFrame (addrByte 0) s
  let s ← (List.range Config.ramSize).foldlM (fun s _ => sendByte 0 s) s
  endFrame s

/-- INIT's pseudocode (R121). -/
def initBody (intensity : Byte) (s : State) : Res State := do
  let s ← configurePins s
  let s ← cmd modeAutoByte s
  let s ← cmd (displayOnByte (clampLevel intensity)) s
  let s ← clearFrame s
  pure { s with intensity := clampLevel intensity, powerOn := true, initialized := true }

/-- INIT, which may be issued at any time (R121, R123). -/
def execInit (intensity : Byte) (s : State) : Host.Outcome State Fault Refusal :=
  openRequest (fun s => plain (initBody intensity s)) s

/-- MODE_AUTO: its command frame (30_encoding.md R73). -/
def execModeAuto (s : State) : Host.Outcome State Fault Refusal := concludeMicro (cmd modeAutoByte s)

/-- MODE_FIXED: its command frame (R74). -/
def execModeFixed (s : State) : Host.Outcome State Fault Refusal := concludeMicro (cmd modeFixedByte s)

/-- DISPLAY_ON(level): its command frame (R76). -/
def execDisplayOn (level : BitVec 3) (s : State) : Host.Outcome State Fault Refusal :=
  concludeMicro (cmd (displayOnByte level) s)

/-- ADDR(a): it opens a write frame, which stays open for the data bytes (R77). -/
def execAddr (a : RamAddr) (s : State) : Host.Outcome State Fault Refusal := concludeMicro (openFrame (addrByte a) s)

end Sys2Proof.Machine
end

