-- ==== Sys2Proof/Machine/Display.lean ====
section
/-! DEFINITION. The display encoder: ROTATE_BITS, SET_LED, RENDER_CHAR, SET_DIGIT, SET_TEXT (42_display_encoder.md). -/

namespace Sys2Proof.Machine

/-- ROTATE_BITS: no pin, no guard, the rotated byte as the result (R131). -/
def execRotateBits (x : Byte) (s : State) : Host.Outcome State Fault Refusal :=
  openRequest (fun s => .ok (⟨(rot x).setWidth 32, false⟩, s)) s

/-- SET_LED (R133). -/
def execSetLed (position : Pos) (color : Byte) (s : State) : Host.Outcome State Fault Refusal :=
  guardedRequest 0x3 (fun s => plain (writeData (ledAddress position) color s)) s

/-- RENDER_CHAR (R135). -/
def execRenderChar (position : Pos) (pattern : Byte) (dot : Bool) (s : State) : Host.Outcome State Fault Refusal :=
  guardedRequest 0x4 (fun s => plain (renderChar position pattern dot s)) s

/-- SET_DIGIT's pseudocode: the lookup, then row-planes 0..5 (R137). -/
def setDigitBody (position : Pos) (code : Byte) (dot : Bool) (s : State) : Res State := do
  let pattern ← lookupOrRaise code s
  (List.range Config.digitRows).foldlM
    (fun s r => renderChar (BitVec.ofNat 3 r) (digitRow pattern r position) dot s) s

/-- SET_DIGIT (R137). -/
def execSetDigit (position : Pos) (code : Byte) (dot : Bool) (s : State) : Host.Outcome State Fault Refusal :=
  guardedRequest 0x5 (fun s => plain (setDigitBody position code dot s)) s

/-- One glyph row of SET_TEXT: gather it, rotate it, write it; an unknown code raises before the write (R140, R144). -/
def writeRow (buffer : List Byte) (s : State) (r : Nat) : Res State :=
  match rowByte s.font buffer r with
  | .ok row => renderChar (BitVec.ofNat 3 r) (rot row) false s
  | .error c => raise .unknownChar (c.setWidth 32) s

/-- The dot byte, the diagnostic flag, and the state after the diagnostic event, if any (R141, R142). -/
def scanDot (t : List Byte) (s : State) : Res (Byte × Bool × State) :=
  match dotByte t with
  | .noDot => .ok (0, false, s)
  | .placed b => .ok (b, false, s)
  | .dropped => .ok (0, true, emit .dotDropped s)
  | .beyond => .error (.model .dotBeyondTable)

/-- SET_TEXT's pseudocode (R140). -/
def setTextBody (t : List Byte) (s : State) : Res (Reply × State) := do
  let (dots, diag, s) ← scanDot t s
  let s ← renderChar 7 (rot dots) false s
  let s ← (List.range Config.textRows).foldlM (writeRow (layout (removeDots t))) s
  pure (⟨0, diag⟩, s)

/-- SET_TEXT (R140). -/
def execSetText (t : List Byte) (s : State) : Host.Outcome State Fault Refusal := guardedRequest 0x6 (setTextBody t) s

end Sys2Proof.Machine
end

