-- ==== Sys2Proof/Machine/Keys.lean ====
section
/-! DEFINITION. The key-scan read: GET_BUTTONS and GET_BUTTONS64, two results over one frame (43_key_scanner.md), and the
wire command that opens that frame (30_encoding.md R75). -/

namespace Sys2Proof.Machine

/-- A key-scan read whose result is a combination of its four bytes (R160, R163). -/
def readKeys (combine : Byte → Byte → Byte → Byte → Word) (s : State) : Res (Reply × State) := do
  let (k0, k1, k2, k3, s) ← keyFrame s
  pure (⟨combine k0 k1 k2 k3, false⟩, s)

/-- GET_BUTTONS (R161). -/
def execGetButtons (s : State) : Host.Outcome State Fault Refusal := guardedRequest 0x7 (readKeys combineOverlap) s

/-- GET_BUTTONS64 (R162). -/
def execGetButtons64 (s : State) : Host.Outcome State Fault Refusal := guardedRequest 0x8 (readKeys combineConcat) s

/-- KEY_SCAN: it opens the key frame, which stays open for the received bytes (30_encoding.md R75). -/
def execKeyScan (s : State) : Host.Outcome State Fault Refusal := concludeMicro (openFrame keyScanByte s)

end Sys2Proof.Machine
end

