-- ==== Sys2Proof/Machine/Reserved.lean ====
section
/-! DEFINITION. The two RESERVED rows: every such request word faults with ILLEGAL_REQUEST before any event, with the
word as the info (30_encoding.md R89, 60_exceptions.md R170, R172). -/

namespace Sys2Proof.Machine

/-- RESERVED, opcodes 0xA and 0xB. -/
def execReservedAB (word : Word) (s : State) : Host.Outcome State Fault Refusal := .next (fail .illegalRequest word s)

/-- RESERVED, opcodes 0xC to 0xF. -/
def execReservedCF (word : Word) (s : State) : Host.Outcome State Fault Refusal := .next (fail .illegalRequest word s)

end Sys2Proof.Machine
end

