-- ==== Sys2Proof/Machine/Transport.lean ====
section
/-! DEFINITION. The two micro-operations as instructions (40_transport.md R101, R104). No request encodes them; the
requests run the same operations inside their frames (log entry 9). -/

namespace Sys2Proof.Machine

/-- SEND_BYTE (R101). DESIGN CHOICE: it runs whatever level STB and CLK hold, where the spec gives no effect with STB high
or CLK low (R102, 70_reset_and_hazards.md R194; log entry 9). -/
def execSendByte (v : Byte) (s : State) : Host.Outcome State Fault Refusal := concludeMicro (sendByte v s)

/-- RECEIVE_BYTE; the byte stands in the shift value (R104; log entry 9). DESIGN CHOICE: it runs whatever level STB and CLK
hold, where the spec gives no effect with STB high or CLK low (R105, 70_reset_and_hazards.md R194; log entry 9). -/
def execReceiveByte (s : State) : Host.Outcome State Fault Refusal := concludeMicro (receiveByte s)

end Sys2Proof.Machine
end

