-- ==== Sys2Proof/Machine/Dispatch.lean ====
section
/-! DEFINITION. Which meaning each instruction has. -/

namespace Sys2Proof.Machine

def exec (i : Instr) (s : State) : Host.Outcome State Fault Refusal :=
  match i with
  | .init b => Sys2Proof.Machine.execInit b s
  | .sendCommand c => Sys2Proof.Machine.execSendCommand c s
  | .sendData a d => Sys2Proof.Machine.execSendData a d s
  | .setLed p c => Sys2Proof.Machine.execSetLed p c s
  | .renderChar p x dot => Sys2Proof.Machine.execRenderChar p x dot s
  | .setDigit p c dot => Sys2Proof.Machine.execSetDigit p c dot s
  | .setText t => Sys2Proof.Machine.execSetText t s
  | .getButtons => Sys2Proof.Machine.execGetButtons s
  | .getButtons64 => Sys2Proof.Machine.execGetButtons64 s
  | .rotateBits x => Sys2Proof.Machine.execRotateBits x s
  | .reservedAB w => Sys2Proof.Machine.execReservedAB w s
  | .reservedCF w => Sys2Proof.Machine.execReservedCF w s
  | .sendByte v => Sys2Proof.Machine.execSendByte v s
  | .receiveByte => Sys2Proof.Machine.execReceiveByte s
  | .modeAuto => Sys2Proof.Machine.execModeAuto s
  | .modeFixed => Sys2Proof.Machine.execModeFixed s
  | .keyScan => Sys2Proof.Machine.execKeyScan s
  | .displayOn l => Sys2Proof.Machine.execDisplayOn l s
  | .addr a => Sys2Proof.Machine.execAddr a s

end Sys2Proof.Machine
end

