-- ==== Sys2Proof/Machine/HostPort.lean ====
section
/-! DEFINITION. What the host does to the block (70_reset_and_hazards.md R203): bind the font, present request words,
supply DIO levels, reset; and what the block does with presented words (10_state.md R30, 30_encoding.md R83, R91). -/

namespace Sys2Proof.Machine

/-- The host binds FONT before reset is released (R193, R203). -/
def bindFont (font : List (Byte × Byte)) (s : State) : State := { s with font := font }

/-- The requester presents words on the request port (30_encoding.md R83). -/
def presentWords (words : List Word) (s : State) : State := { s with port := s.port ++ words }

/-- The environment's next levels on DIO (10_state.md R24). -/
def supplyLevels (levels : List Bool) (s : State) : State := { s with dioLevels := s.dioLevels ++ levels }

/-- The host asserts reset, to land after `n` units of the block's activity (log entry 11). -/
def assertReset (n : Nat) (s : State) : State := { s with resetIn := some n }

/-- The words of a request as the port carries them (R86). -/
def requestWords (r : Request) : List Word := r.word :: r.text

/-- ACCEPTANCE: with the request word and all its text words on the port, the whole request is copied into REQ and SEQ
becomes BUSY (10_state.md R30, 30_encoding.md R83, R86, R91). With fewer words the block goes on waiting. -/
def accept (s : State) : Option State :=
  match s.port with
  | [] => none
  | word :: rest =>
    if rest.length < textWordsOf word then none
    else some { s with
      req := ⟨word, rest.take (textWordsOf word)⟩
      port := rest.drop (textWordsOf word)
      seq := .busy }

/-- RESET of the block while it runs: every element of the block's state takes its reset value, and no event is
appended (R190, R191). What belongs to the environment stays: the bound font, the words still presented, the levels to
come, the words already returned. -/
def resetBlock (s : State) : State :=
  { State.reset with
    font := s.font
    port := s.port
    rspPort := s.rspPort
    dioLevels := s.dioLevels
    sampleCount := s.sampleCount }

/-- How many samples a list of events took. -/
def samplesIn (events : List Event) : Nat :=
  events.countP (fun e => match e with | .rd _ _ => true | _ => false)

/-- A reset that lands inside a request, after its first `n` events: the request ends with no response, and only the
samples of those events were taken (R191). `s` is the state before the request, `t` the state it would have ended in. -/
def cutByReset (n : Nat) (s t : State) : State :=
  let taken := samplesIn ((t.trace.drop s.trace.length).take n)
  resetBlock { s with
    port := t.port
    dioLevels := s.dioLevels.drop taken
    sampleCount := s.sampleCount + taken }

/-- The state after a step that went from `s` to `t` while a reset was to land `n + 1` units later. Acceptance is one
unit, each event is one, the end of the request is one (log entry 11). -/
def withResetPending (n : Nat) (s t : State) : State :=
  let events := t.trace.length - s.trace.length
  if n ≤ events then cutByReset n s t else { t with resetIn := some (n - events - 1) }

end Sys2Proof.Machine
end

