-- ==== Sys2Proof/Machine/Step.lean ====
section
/-! DEFINITION. One step: the host's reset if it is due, else one request from the port to its end, or one wire command
(log entries 1, 8, 11). -/

namespace Sys2Proof.Machine

/-- `Execute(REQ)`: a request that is no instruction faults with ILLEGAL_REQUEST before any event, the info being its
word; any other runs (60_exceptions.md R171, R172, R176). -/
def execute (s : State) : Host.Outcome State Fault Refusal :=
  match decodeRequest s.req with
  | .ok i => exec i s
  | .error _ => .next (fail .illegalRequest s.req.word s)

/-- A wire command byte handed to the transport (log entry 8). -/
def executeWire (b : Byte) (s : State) : Host.Outcome State Fault Refusal :=
  match decodeWire b with
  | .ok i => exec i s
  | .error _ => .refused (.notAWireCommand b)

/-- The block has something to do: a wire byte, a latched request, or a whole request on its port. -/
def hasWork (s : State) : Bool := !s.wire.isEmpty || s.seq == .busy || (accept s).isSome

/-- One step with no reset due. An idle block with no whole request on its port waits (10_state.md R30, R187). -/
def runNext (s : State) : Host.Outcome State Fault Refusal :=
  match s.wire with
  | b :: rest => executeWire b { s with wire := rest }
  | [] =>
    match s.seq with
    | .busy => execute s
    | .idle =>
      match accept s with
      | some t => execute t
      | none => .next s

/-- The machine's step. -/
def step (s : State) : Host.Outcome State Fault Refusal :=
  match s.resetIn with
  | none => runNext s
  | some 0 => .next (resetBlock s)
  | some (n + 1) =>
    if hasWork s then
      match runNext s with
      | .next t => .next (withResetPending n s t)
      | .fault f => .fault f
      | .refused r => .refused r
    else .next { s with resetIn := some n }

/-- The state whose next step takes the instruction of an opcode-table row: a wire command byte is handed to the
transport, a request is presented first on the port of an idle block; no reset is due (log entry 14). -/
def State.withFetchWord (s : State) (nbits w : Nat) : State :=
  match codeOfTable nbits w with
  | .wire b => { s with wire := b :: s.wire, resetIn := none }
  | .request r => { s with wire := [], port := requestWords r ++ s.port, seq := .idle, resetIn := none }

end Sys2Proof.Machine
end

