-- ==== Sys2Proof/Machine/Assembler.lean ====
section
/-! DEFINITION. The textual syntax of a request, one line at a time, and its pseudo-forms (30_encoding.md R92, R93). A
line is a list of characters. What the rules leave open (blanks, a comment sign inside quotes) is in log entry 19. -/

namespace Sys2Proof.Machine

/-- Why a line is rejected. -/
inductive AsmError where
  /-- a quoted text or character that is not closed, or a wrong escape -/
  | badQuote
  /-- a character of a text that is not ASCII -/
  | notAscii
  /-- not a decimal or `0x` hexadecimal integer -/
  | badNumber
  /-- an integer out of range for its field -/
  | outOfRange
  /-- no request of this name with these operands -/
  | badLine
deriving DecidableEq, Repr

/-- A token of a line. -/
inductive Token where
  | name (cs : List Char)
  | comma
  | text (cs : List Byte)
  | quoted (c : Byte)
deriving DecidableEq, Repr

/-- Where the scan of a line stands; collected characters are newest first. -/
inductive ScanMode where
  | plain (seen : List Char)
  | text (seen : List Byte)
  | escape (seen : List Byte)
  | quoteOpen
  | quoteClose (c : Byte)
deriving DecidableEq, Repr

/-- The code of an ASCII character. -/
def asciiCode (c : Char) : Option Byte := if c.toNat < 128 then some (BitVec.ofNat 8 c.toNat) else none

/-- The token of collected plain characters, if any, before further tokens. -/
def flushName (seen : List Char) (rest : List Token) : List Token :=
  if seen.isEmpty then rest else .name seen.reverse :: rest

/-- The tokens of a line. A comment runs from ';' to the end of the line, and a text between double quotes has two escapes
(R92). DESIGN CHOICE: a character between single quotes is any one ASCII character, read as it stands, with no escape, a
quote or a backslash included (log entry 19). -/
def scan : List Char → ScanMode → Except AsmError (List Token)
  | [], .plain seen => .ok (flushName seen [])
  | [], .text _ => .error .badQuote
  | [], .escape _ => .error .badQuote
  | [], .quoteOpen => .error .badQuote
  | [], .quoteClose _ => .error .badQuote
  | c :: rest, .plain seen =>
    if c = ';' then .ok (flushName seen [])
    else if c = ' ' ∨ c = '\t' then
      match scan rest (.plain []) with
      | .ok ts => .ok (flushName seen ts)
      | .error e => .error e
    else if c = ',' then
      match scan rest (.plain []) with
      | .ok ts => .ok (flushName seen (.comma :: ts))
      | .error e => .error e
    else if c = '"' then if seen.isEmpty then scan rest (.text []) else .error .badQuote
    else if c = '\'' then if seen.isEmpty then scan rest .quoteOpen else .error .badQuote
    else scan rest (.plain (c :: seen))
  | c :: rest, .text seen =>
    if c = '"' then
      match scan rest (.plain []) with
      | .ok ts => .ok (.text seen.reverse :: ts)
      | .error e => .error e
    else if c = '\\' then scan rest (.escape seen)
    else
      match asciiCode c with
      | some b => scan rest (.text (b :: seen))
      | none => .error .notAscii
  | c :: rest, .escape seen =>
    if c = '"' then scan rest (.text (0x22 :: seen))
    else if c = '\\' then scan rest (.text (0x5C :: seen))
    else .error .badQuote
  | c :: rest, .quoteOpen =>
    match asciiCode c with
    | some b => scan rest (.quoteClose b)
    | none => .error .notAscii
  | c :: rest, .quoteClose b =>
    if c = '\'' then
      match scan rest (.plain []) with
      | .ok ts => .ok (.quoted b :: ts)
      | .error e => .error e
    else .error .badQuote

/-- The value of a digit below a base. -/
def digitValue (base : Nat) (c : Char) : Option Nat :=
  let n := c.toNat
  let v := if 48 ≤ n ∧ n ≤ 57 then some (n - 48)
    else if 97 ≤ n ∧ n ≤ 102 then some (n - 87)
    else if 65 ≤ n ∧ n ≤ 70 then some (n - 55)
    else none
  v.filter (fun v => decide (v < base))

/-- The value of a list of digits, after a value already read. -/
def digitsValue (base : Nat) : List Char → Nat → Option Nat
  | [], acc => some acc
  | c :: rest, acc =>
    match digitValue base c with
    | some v => digitsValue base rest (acc * base + v)
    | none => none

/-- A decimal or `0x` hexadecimal integer (R92). -/
def numberValue (cs : List Char) : Option Nat :=
  match cs with
  | [] => none
  | '0' :: 'x' :: [] => none
  | '0' :: 'x' :: rest => digitsValue 16 rest 0
  | _ => digitsValue 10 cs 0

/-- An integer that fits in a field of `n` bits (R92, R93). -/
def fieldValue (n : Nat) (cs : List Char) : Except AsmError (BitVec n) :=
  match numberValue cs with
  | none => .error .badNumber
  | some v => if v < 2 ^ n then .ok (BitVec.ofNat n v) else .error .outOfRange

/-- An operand that is a number, or for a character operand a quoted character too (R92). -/
def charValue : Token → Except AsmError Byte
  | .name cs => fieldValue 8 cs
  | .quoted c => .ok c
  | .comma => .error .badLine
  | .text _ => .error .badLine

/-- The operands after a position: a number or character, then optionally the word `dot` (R92, R93). -/
def dotOperand : List Token → Except AsmError Bool
  | [] => .ok false
  | [.comma, .name d] => if d = "dot".toList then .ok true else .error .badLine
  | _ => .error .badLine

/-- The request of a mnemonic and its operands (R92), the optional operands filled in as R93 says. -/
def requestOfLine (m : List Char) (operands : List Token) : Except AsmError Instr :=
  if m = "init".toList then
    match operands with
    | [] => .ok (.init Config.intensityDefault)
    | [.name n] => do return .init (← fieldValue 8 n)
    | _ => .error .badLine
  else if m = "send_command".toList then
    match operands with
    | [.name b] => do return .sendCommand (← fieldValue 8 b)
    | _ => .error .badLine
  else if m = "send_data".toList then
    match operands with
    | [.name a, .comma, .name b] => do return .sendData (← fieldValue 4 a) (← fieldValue 8 b)
    | _ => .error .badLine
  else if m = "set_led".toList then
    match operands with
    | [.name p, .comma, .name b] => do return .setLed (← fieldValue 3 p) (← fieldValue 8 b)
    | _ => .error .badLine
  else if m = "render_char".toList then
    match operands with
    | .name p :: .comma :: .name b :: rest => do
      return .renderChar (← fieldValue 3 p) (← fieldValue 8 b) (← dotOperand rest)
    | _ => .error .badLine
  else if m = "set_digit".toList then
    match operands with
    | .name p :: .comma :: c :: rest => do
      return .setDigit (← fieldValue 3 p) (← charValue c) (← dotOperand rest)
    | _ => .error .badLine
  else if m = "set_text".toList then
    match operands with
    | [.text t] => if textFits t then .ok (.setText t) else .error .outOfRange
    | _ => .error .badLine
  else if m = "get_buttons".toList then
    match operands with
    | [] => .ok .getButtons
    | _ => .error .badLine
  else if m = "get_buttons64".toList then
    match operands with
    | [] => .ok .getButtons64
    | _ => .error .badLine
  else if m = "rotate_bits".toList then
    match operands with
    | [.name b] => do return .rotateBits (← fieldValue 8 b)
    | _ => .error .badLine
  else .error .badLine

/-- A line of the assembler: nothing for a blank line or a comment, else one request (R92). -/
def assemble (line : List Char) : Except AsmError (Option Instr) :=
  match scan line (.plain []) with
  | .error e => .error e
  | .ok [] => .ok none
  | .ok (.name m :: operands) => do return some (← requestOfLine m operands)
  | .ok _ => .error .badLine

end Sys2Proof.Machine
end

