-- ==== Sys2Proof/Machine/Observer.lean ====
section
/-! DEFINITION. The reference observer of the chip (20_memory.md R61 to R67): a function of TRACE. It is no part of the
block, and no rule of the block depends on it. -/

namespace Sys2Proof.Machine

/-- The chip's addressing mode (R61, R64). -/
inductive AddrMode where
  | auto
  | fixed
deriving DecidableEq, Repr

/-- The observer's state; `none` stands for UNKNOWN (R61). -/
structure Chip where
  /-- RAM[0..15] (log entry 22) -/
  ram : Memory
  /-- MODE -/
  mode : Option AddrMode
  /-- PTR -/
  ptr : Option RamAddr
  /-- DISPLAY: on or off, and the brightness -/
  display : Option (Bool × BitVec 3)
  /-- KEYS_READ, oldest first -/
  keysRead : List (List Byte)
  /-- ERR -/
  err : Bool
deriving DecidableEq, Repr

/-- S0 when nothing is known of the chip (R61). -/
def unknownChip : Chip := ⟨[], none, none, none, [], false⟩

/-- The frame the observer is inside of: the written bits of an unfinished byte, the written bytes, the sampled bits,
each oldest first. A written bit is `none` where DIO was at X (R63). -/
structure OpenFrame where
  bits : List (Option Bool)
  bytes : List (Option Byte)
  samples : List Bool
deriving DecidableEq, Repr

/-- The chip, with what the observer tracks of the wires to decode the trace (R62, R63). -/
structure Observer where
  chip : Chip
  /-- DIR[DIO] -/
  dioDir : Dir
  /-- LVL[DIO] -/
  dioLvl : Level
  /-- the last event on CLK was `Wr(CLK, 0)` -/
  clkLow : Bool
  frame : Option OpenFrame
deriving DecidableEq, Repr

/-- The byte whose bit i is the i-th of a list of bits (R46, R47, R63). -/
def byteOfBits (bits : List Bool) : Byte :=
  bits.foldr (fun b acc => (acc <<< 1) ||| (if b then 1 else 0)) 0

/-- A byte from eight written bits: UNKNOWN if one of them is (R63). -/
def byteOfWritten (bits : List (Option Bool)) : Option Byte :=
  if bits.all Option.isSome then some (byteOfBits (bits.map (fun b => b.getD false))) else none

/-- Sampled bits as bytes, eight at a time; an unfinished byte is dropped (R66; log entry 13). -/
def bytesOfSamples : List Bool → List Byte
  | b0 :: b1 :: b2 :: b3 :: b4 :: b5 :: b6 :: b7 :: rest =>
    byteOfBits [b0, b1, b2, b3, b4, b5, b6, b7] :: bytesOfSamples rest
  | _ => []

/-- One data byte after an address command (R65). -/
def storeByte (c : Chip) (d : Option Byte) : Chip :=
  match c.mode, c.ptr with
  | some .fixed, some p => { c with ram := writeByte c.ram p d }
  | some .auto, some p => { c with ram := writeByte c.ram p d, ptr := if p = 15 then none else some (p + 1) }
  | _, _ => { c with err := true }

/-- The data bytes after an address command, in order; the first that finds MODE or PTR UNKNOWN ends the writing (R65). -/
def storeBytes (c : Chip) : List (Option Byte) → Chip
  | [] => c
  | d :: rest =>
    if c.mode.isNone || c.ptr.isNone then { c with err := true } else storeBytes (storeByte c d) rest

/-- ERR set when a condition holds. -/
def errIf (b : Bool) (c : Chip) : Chip := { c with err := c.err || b }

/-- A data command: MODE, and the key data of a read command (R64, R66). DESIGN CHOICE: a command that R64 sets aside
(c[5:3] ≠ 0 or c[0] = 1) sets ERR and nothing else, so the samples of its frame are not appended to KEYS_READ, though
R66 alone would append them where c[1] = 1 (log entry 24). -/
def dataCommand (b : Byte) (data : List (Option Byte)) (samples : List Bool) (c : Chip) : Chip :=
  if b.extractLsb' 3 3 ≠ 0 ∨ b.getLsbD 0 then errIf true c
  else
    let c := { c with mode := some (if b.getLsbD 2 then .fixed else .auto) }
    let c := if b.getLsbD 1 then { c with keysRead := c.keysRead ++ [bytesOfSamples samples] }
      else errIf (!samples.isEmpty) c
    errIf (!data.isEmpty) c

/-- A display control: DISPLAY (R64). -/
def displayControl (b : Byte) (data : List (Option Byte)) (samples : List Bool) (c : Chip) : Chip :=
  if b.extractLsb' 4 2 ≠ 0 then errIf true c
  else errIf (!data.isEmpty || !samples.isEmpty) { c with display := some (b.getLsbD 3, b.extractLsb' 0 3) }

/-- An address command: PTR, then the data bytes (R64, R65). DESIGN CHOICE: a command that R64 sets aside (c[5:4] ≠ 0)
sets ERR and nothing else, so the data bytes of its frame are dropped, though R65 alone would store them at PTR
(log entry 24). -/
def addressCommand (b : Byte) (data : List (Option Byte)) (samples : List Bool) (c : Chip) : Chip :=
  if b.extractLsb' 4 2 ≠ 0 then errIf true c
  else errIf (!samples.isEmpty) (storeBytes { c with ptr := some (b.extractLsb' 0 4) } data)

/-- What a closed frame does to the chip: its first byte is its command, classified by bits [7:6] (R64). -/
def applyFrame (f : OpenFrame) (c : Chip) : Chip :=
  match f.bytes with
  | [] => errIf (!f.samples.isEmpty) c
  | none :: _ => errIf true c
  | some b :: data =>
    match (b.extractLsb' 6 2).toNat with
    | 1 => dataCommand b data f.samples c
    | 2 => displayControl b data f.samples c
    | 3 => addressCommand b data f.samples c
    | _ => errIf true c

/-- The frame after one more written bit (R63). -/
def pushBit (b : Option Bool) (f : OpenFrame) : OpenFrame :=
  if f.bits.length = 7 then { f with bits := [], bytes := f.bytes ++ [byteOfWritten (f.bits ++ [b])] }
  else { f with bits := f.bits ++ [b] }

/-- A level as a written bit (R63). -/
def bitOfLevel : Level → Option Bool
  | .lo => some false
  | .hi => some true
  | .x => none

/-- A rising edge of CLK inside a frame: with DIO an output, its level is the next written bit (R63). -/
def risingEdge (o : Observer) : Observer :=
  match o.dioDir with
  | .out => { o with frame := o.frame.map (pushBit (bitOfLevel o.dioLvl)) }
  | .inPu => o
  | .unconf => o

/-- One event of TRACE (R62, R63, R66). DESIGN CHOICE: a `Wr(STB, 0)` inside an open frame continues that frame, its bits and
bytes kept, where R62 does not say whether it opens another; a `Cfg` of CLK counts as a CLK event that is no `Wr(CLK, 0)`;
and a sample counts wherever in its frame it stands (log entry 13). -/
def observeEvent (o : Observer) (e : Event) : Observer :=
  match e with
  | .wr .stb false => { o with frame := some (o.frame.getD ⟨[], [], []⟩) }
  | .wr .stb true =>
    match o.frame with
    | some f => { o with chip := applyFrame f o.chip, frame := none }
    | none => o
  | .wr .clk false => { o with clkLow := true }
  | .wr .clk true => if o.clkLow then { risingEdge o with clkLow := false } else o
  | .wr .dio v => { o with dioLvl := levelOf v }
  | .rd .dio v => { o with frame := o.frame.map (fun f => { f with samples := f.samples ++ [v] }) }
  | .rd .stb _ => o
  | .rd .clk _ => o
  | .cfg .dio d => { o with dioDir := d, dioLvl := .x }
  | .cfg .clk _ => { o with clkLow := false }
  | .cfg .stb _ => o
  | .dotDropped => o

/-- The observer at the start of a trace: the pins as after reset, no frame open (10_state.md R36). -/
def Observer.start (s0 : Chip) : Observer := ⟨s0, .unconf, .x, false, none⟩

/-- The observer after a trace. -/
def observeFrom (o : Observer) (trace : List Event) : Observer := trace.foldl observeEvent o

/-- `Observe(TRACE, S0)` (20_memory.md R61). -/
def observe (trace : List Event) (s0 : Chip) : Chip := (observeFrom (.start s0) trace).chip

end Sys2Proof.Machine
end

