-- ==== Sys2Proof/Safety.lean ====
section
/-! DEFINITION. The terms the claims use: event lists as 30_encoding.md R70 to R72 lay them out, what a request leaves
behind, the samples a key read takes, the illegal requests of R89, and the invariant of the machine. -/

namespace Sys2Proof.Machine

/-! ### Event lists (30_encoding.md R70 to R72) -/

/-- A sent bit-cell (R70). -/
def sentCell (b : Bool) : List Event := [.wr .clk false, .wr .dio b, .wr .clk true]

/-- A sent byte: eight cells, bit 0 first (R70). -/
def sentByte (v : Byte) : List Event := (List.range 8).flatMap (fun i => sentCell (v.getLsbD i))

/-- A received bit-cell (R70). -/
def receivedCell (b : Bool) : List Event := [.wr .clk false, .rd .dio b, .wr .clk true]

/-- A received byte between its two configurations of DIO (R70). -/
def receivedByte (bits : List Bool) : List Event :=
  .cfg .dio .inPu :: (bits.flatMap receivedCell ++ [.cfg .dio .out])

/-- A frame that only sends (R71). -/
def sentFrame (bytes : List Byte) : List Event := .wr .stb false :: (bytes.flatMap sentByte ++ [.wr .stb true])

/-- The key frame: 0x42 sent, then received bytes (R72). -/
def keyFrameEvents (received : List (List Bool)) : List Event :=
  .wr .stb false :: (sentByte 0x42 ++ received.flatMap receivedByte ++ [.wr .stb true])

/-- The two frames of one display-RAM write: [0x44], [0xC0 | a, d] (41_command_protocol.md R116). -/
def writeFrames (a : RamAddr) (d : Byte) : List Event :=
  sentFrame [0x44] ++ sentFrame [0xC0 ||| a.setWidth 8, d]

/-- INIT's pin events before its frames (R120). -/
def configEvents : List Event :=
  [.cfg .dio .out, .cfg .clk .out, .cfg .stb .out, .wr .stb true, .wr .clk true]

/-- INIT's events at a brightness level (R121). -/
def initEvents (level : BitVec 3) : List Event :=
  configEvents ++ sentFrame [0x40] ++ sentFrame [0x88 ||| level.setWidth 8]
    ++ sentFrame (0xC0 :: List.replicate 16 0)

/-- What the block ever puts on the wires: INIT's configuration, the dot diagnostic, and the four frame shapes of R72. -/
inductive Segment where
  | config
  | diagnostic
  | command (c : Byte)
  | write (a : RamAddr) (d : Byte)
  | clear
  | key (b0 b1 b2 b3 : List Bool)
deriving DecidableEq, Repr

/-- The events of a segment (R72). -/
def Segment.events : Segment → List Event
  | .config => configEvents
  | .diagnostic => [.dotDropped]
  | .command c => sentFrame [c]
  | .write a d => sentFrame [0xC0 ||| a.setWidth 8, d]
  | .clear => sentFrame (0xC0 :: List.replicate 16 0)
  | .key b0 b1 b2 b3 => keyFrameEvents [b0, b1, b2, b3]

/-- The received bytes of a key segment have eight samples each; the other segments carry no condition. -/
def Segment.wellSized : Segment → Prop
  | .key b0 b1 b2 b3 => b0.length = 8 ∧ b1.length = 8 ∧ b2.length = 8 ∧ b3.length = 8
  | .config => True
  | .diagnostic => True
  | .command _ => True
  | .write _ _ => True
  | .clear => True

/-! ### What a request leaves behind -/

/-- The three pins are outputs (10_state.md R23). -/
abbrev PinsDriven (s : State) : Prop := s.stb.dir = .out ∧ s.clk.dir = .out ∧ s.dio.dir = .out

/-- STB and CLK are driven high, DIO is an output at a level (R23). -/
abbrev BusAtRest (dio : Level) (t : State) : Prop :=
  t.stb = ⟨.out, .hi⟩ ∧ t.clk = ⟨.out, .hi⟩ ∧ t.dio = ⟨.out, dio⟩

/-- The three pins are as they were. -/
abbrev SamePins (s t : State) : Prop := t.stb = s.stb ∧ t.clk = s.clk ∧ t.dio = s.dio

/-- The response of a request that has ended: the registers, the two words, SEQ (R31, 30_encoding.md R87). -/
abbrev Responds (status : BitVec 4) (result : Word) (diag : Bool) (s t : State) : Prop :=
  t.rspStatus = status ∧ t.rspResult = result ∧ t.rspDiag = diag ∧ t.seq = .idle ∧
  t.rspPort = s.rspPort ++ [(if diag then 16 else 0) + status.setWidth 32, result]

/-- The response registers, the response port and SEQ are as they were. -/
abbrev SameResponse (s t : State) : Prop :=
  t.rspStatus = s.rspStatus ∧ t.rspResult = s.rspResult ∧ t.rspDiag = s.rspDiag ∧ t.seq = s.seq ∧
  t.rspPort = s.rspPort

/-- INTENSITY, POWER_ON and INITIALIZED are as they were. -/
abbrev SameControl (s t : State) : Prop :=
  t.intensity = s.intensity ∧ t.powerOn = s.powerOn ∧ t.initialized = s.initialized

/-- The request latch, the font, the words still presented, a pending reset and the wire queue are as they were. -/
abbrev SameLatchAndHost (s t : State) : Prop :=
  t.req = s.req ∧ t.font = s.font ∧ t.port = s.port ∧ t.resetIn = s.resetIn ∧ t.wire = s.wire

/-- No sample was taken. -/
abbrev SameSamples (s t : State) : Prop := t.dioLevels = s.dioLevels ∧ t.sampleCount = s.sampleCount

/-- The transport's shift value and counter are as they were. -/
abbrev SameTransport (s t : State) : Prop := t.shift = s.shift ∧ t.bitCount = s.bitCount

/-- A request ended with status OK after these events, its result and diagnostic, DIO at this level at the end; and what
it left alone: the control registers, FAULT_LOG, the latch and the host's inputs. The transport's shift value and
counter are free (10_state.md R33). -/
abbrev Completed (events : List Event) (dio : Level) (result : Word) (diag : Bool) (s t : State) : Prop :=
  t.trace = s.trace ++ events ∧ BusAtRest dio t ∧ Responds 0 result diag s t ∧
  SameControl s t ∧ t.faultLog = s.faultLog ∧ SameLatchAndHost s t

/-- A fault was taken before any event: FAULT_LOG and the response say so, and nothing else changed
(60_exceptions.md R172, R173, R177). -/
abbrev FaultedAtOnce (status : BitVec 4) (info : Word) (s t : State) : Prop :=
  t.trace = s.trace ∧ SamePins s t ∧ Responds status 0 false s t ∧ SameControl s t ∧
  t.faultLog = s.faultLog ++ [⟨s.req, status, info⟩] ∧ SameLatchAndHost s t ∧ SameSamples s t ∧ SameTransport s t

/-! ### Samples (10_state.md R24, 40_transport.md R104) -/

/-- The level of the k-th sample taken from a state on: an input, or the free value. -/
def sampleAt (s : State) (k : Nat) : Bool := (s.dioLevels[k]?).getD (Config.freeSample (s.sampleCount + k))

/-- The eight samples of the j-th byte received from a state on. -/
def samplesOfByte (s : State) (j : Nat) : List Bool := (List.range 8).map (fun i => sampleAt s (8 * j + i))

/-- A byte from its samples, `Σ b_i · 2^i` (R104). -/
def byteOfSamples (bits : List Bool) : Byte :=
  BitVec.ofNat 8 ((List.range 8).map (fun i => if bits[i]? = some true then 2 ^ i else 0)).sum

/-- The j-th byte received from a state on. -/
def receivedFrom (s : State) (j : Nat) : Byte := byteOfSamples (samplesOfByte s j)

/-- `n` samples were taken. -/
abbrev SamplesTaken (n : Nat) (s t : State) : Prop :=
  t.dioLevels = s.dioLevels.drop n ∧ t.sampleCount = s.sampleCount + n

/-! ### SET_TEXT (42_display_encoder.md R140 to R148) -/

/-- realPos of a text whose first '.' has index d, the length being the original one (R141). -/
def realPos (t : List Byte) (d : Nat) : Int := (d : Int) + (8 - (t.length : Int))

/-- The byte SET_TEXT writes to row-plane 7: `0x80 >> realPos`, or 0 without a dot or with a dropped one (R146). -/
def dotPlane (t : List Byte) : Byte :=
  match t.findIdx? (· == dotCode) with
  | none => 0
  | some d => if realPos t d < 0 then 0 else 0x80#8 >>> (realPos t d).toNat

/-- The dot of the text is dropped (R142). -/
def dotIsDropped (t : List Byte) : Bool :=
  match t.findIdx? (· == dotCode) with
  | none => false
  | some d => decide (realPos t d < 0)

/-- The first eight characters of a text without its dots (R146). -/
def shownChars (t : List Byte) : List Byte := (t.filter (fun c => c != dotCode)).take 8

/-- The byte SET_TEXT writes to row-plane r: bit `n - 1 - k` is bit r of the k-th shown character's pattern (R146). -/
def placedRow (font : List (Byte × Byte)) (shown : List Byte) (r : Nat) : Byte :=
  BitVec.ofNat 8 ((List.range shown.length).map (fun k =>
    match shown[k]? with
    | none => 0
    | some c =>
      if c = spaceCode then 0
      else if ((lookup font c).getD 0).getLsbD r then 2 ^ (shown.length - 1 - k) else 0)).sum

/-- Every shown character but the spaces is in the font. -/
def allKnown (font : List (Byte × Byte)) (shown : List Byte) : Bool :=
  shown.all (fun c => c == spaceCode || (lookup font c).isSome)

/-- The first code in the order of the layout buffer that is no space and not in the font (R145). -/
def firstUnknown (font : List (Byte × Byte)) (buffer : List Byte) : Option Byte :=
  buffer.find? (fun c => c != spaceCode && (lookup font c).isNone)

/-- SET_TEXT's events up to and including its row-plane 7 write (R140, R142). -/
def textStartEvents (t : List Byte) : List Event :=
  (if dotIsDropped t then [Event.dotDropped] else []) ++ writeFrames 14 (dotPlane t)

/-- SET_TEXT's writes of row-planes 0..6 (R140, R146). -/
def textRowEvents (font : List (Byte × Byte)) (t : List Byte) : List Event :=
  (List.range 7).flatMap (fun r => writeFrames (BitVec.ofNat 4 (2 * r)) (placedRow font (shownChars t) r))

/-! ### Illegal requests (30_encoding.md R84, R89) -/

/-- A byte lane of the last text word past the text's length is not 0 (R86). -/
def badPadding (r : Request) : Prop :=
  ∃ k w, (byteOf r.word).toNat ≤ k ∧ r.text[k / 4]? = some w ∧ w.extractLsb' (8 * (k % 4)) 8 ≠ 0

/-- The request is illegal: a reserved opcode, a non-zero RSV, a field non-zero that the table of R84 shows as 0 for
the opcode, or a non-zero padding lane (R89). -/
def Illegal (r : Request) : Prop :=
  let op := (opOf r.word).toNat
  0xA ≤ op ∨ rsvOf r.word ≠ 0 ∨
  (posOf r.word ≠ 0 ∧ op ∉ [3, 4, 5]) ∨
  (dotOf r.word = true ∧ op ∉ [4, 5]) ∨
  (byteOf r.word ≠ 0 ∧ op ∈ [7, 8]) ∨
  (addrOf r.word ≠ 0 ∧ op ≠ 2) ∨
  (op = 6 ∧ badPadding r)

/-! ### Kinds of instruction -/

/-- The instruction is a request, one the request port can carry; the others are the transport's. -/
def isRequest : Instr → Bool
  | .sendByte _ => false
  | .receiveByte => false
  | .modeAuto => false
  | .modeFixed => false
  | .keyScan => false
  | .displayOn _ => false
  | .addr _ => false
  | .init _ => true
  | .sendCommand _ => true
  | .sendData _ _ => true
  | .setLed _ _ => true
  | .renderChar _ _ _ => true
  | .setDigit _ _ _ => true
  | .setText _ => true
  | .getButtons => true
  | .getButtons64 => true
  | .rotateBits _ => true
  | .reservedAB _ => true
  | .reservedCF _ => true

/-- The opcode of a request that the INITIALIZED guard covers (60_exceptions.md R173, 30_encoding.md R84). -/
def guardedOpcode : Instr → Option (BitVec 4)
  | .sendCommand _ => some 1
  | .sendData _ _ => some 2
  | .setLed _ _ => some 3
  | .renderChar _ _ _ => some 4
  | .setDigit _ _ _ => some 5
  | .setText _ => some 6
  | .getButtons => some 7
  | .getButtons64 => some 8
  | .init _ => none
  | .rotateBits _ => none
  | .reservedAB _ => none
  | .reservedCF _ => none
  | .sendByte _ => none
  | .receiveByte => none
  | .modeAuto => none
  | .modeFixed => none
  | .keyScan => none
  | .displayOn _ => none
  | .addr _ => none

/-! ### Event counts, pins and reset -/

/-- How many events a request appends: with status OK, the table of 70_reset_and_hazards.md R201, the dot diagnostic
counted; a SET_TEXT that faults with UNKNOWN_CHAR, its row-plane 7 write; any other fault, none. -/
def eventCount (status : BitVec 4) : Instr → Nat
  | .init _ => 467
  | .sendCommand _ => if status = 0 then 26 else 0
  | .sendData _ _ => if status = 0 then 76 else 0
  | .setLed _ _ => if status = 0 then 76 else 0
  | .renderChar _ _ _ => if status = 0 then 76 else 0
  | .setDigit _ _ _ => if status = 0 then 456 else 0
  | .setText t =>
    (if status = 0 then 608 else if status = 1 then 76 else 0) +
      (if (status = 0 ∨ status = 1) ∧ dotIsDropped t = true then 1 else 0)
  | .getButtons => if status = 0 then 130 else 0
  | .getButtons64 => if status = 0 then 130 else 0
  | .rotateBits _ => 0
  | .reservedAB _ => 0
  | .reservedCF _ => 0
  | .sendByte _ => 24
  | .receiveByte => 26
  | .modeAuto => 26
  | .modeFixed => 26
  | .displayOn _ => 26
  | .keyScan => 25
  | .addr _ => 25

/-- What one event does to a pin: a configuration sets its direction and makes its level X, a write sets its level
(10_state.md R22, 00_scope.md R19). -/
def pinAfterEvent (p : Pin) (st : PinState) : Event → PinState
  | .cfg q d => if q = p then ⟨d, .x⟩ else st
  | .wr q v => if q = p then ⟨st.dir, if v then .hi else .lo⟩ else st
  | .rd _ _ => st
  | .dotDropped => st

/-- What events do to a pin. -/
def pinAfter (p : Pin) (st : PinState) (events : List Event) : PinState := events.foldl (pinAfterEvent p) st

/-- The block's state is as the spec gives it after reset (10_state.md R36). INTENSITY, REQ, the shift value and the
counter are unspecified there, so nothing is said of them. -/
abbrev BlockReset (s : State) : Prop :=
  s.stb = ⟨.unconf, .x⟩ ∧ s.clk = ⟨.unconf, .x⟩ ∧ s.dio = ⟨.unconf, .x⟩ ∧ s.powerOn = false ∧ s.initialized = false ∧
  s.seq = .idle ∧ s.rspStatus = 0 ∧ s.rspResult = 0 ∧ s.rspDiag = false ∧ s.faultLog = [] ∧ s.trace = []

/-! ### SET_DIGIT -/

/-- The byte SET_DIGIT writes to row-plane r (42_display_encoder.md R137). -/
def digitByte (pattern : Byte) (r : Nat) (position : Pos) (dot : Bool) : Byte :=
  (if pattern.getLsbD r then 1#8 <<< position.toNat else 0) ||| (if dot then 0x80 else 0)

/-! ### The invariant -/

/-- What the wires show at the end of TRACE agrees with the pins: no frame is open, and DIO's direction is the one the
observer tracked (20_memory.md R62, R63). -/
def TraceAtRest (s : State) : Prop :=
  (observeFrom (.start unknownChip) s.trace).frame = none ∧
  (observeFrom (.start unknownChip) s.trace).dioDir = s.dio.dir

/-- The machine between requests: IDLE with nothing handed to the transport; the pins untouched before INIT and at rest
after it (10_state.md R23, R36, 70_reset_and_hazards.md R199); POWER_ON as INITIALIZED (R28, R29); a status the block
produces (60_exceptions.md R170); the diagnostic only with an OK status and a zero result, a fault's result 0 (R31, R177). -/
structure Inv (s : State) : Prop where
  idle : s.seq = .idle
  wireEmpty : s.wire = []
  atRest : s.initialized = true → ∃ l, BusAtRest l s
  untouched : s.initialized = false → s.stb = .reset ∧ s.clk = .reset ∧ s.dio = .reset
  power : s.powerOn = s.initialized
  status : s.rspStatus.toNat ≤ 3
  diag : s.rspDiag = true → s.rspStatus = 0 ∧ s.rspResult = 0
  faultResult : s.rspStatus ≠ 0 → s.rspResult = 0
  traceAtRest : TraceAtRest s

end Sys2Proof.Machine
end

