-- ==== Sys2Proof/Certificates/Slice0/Obligations.lean ====
section
/-! DEFINITION. The statements about the block, from the numbered rules of spec/. -/

open Sys2Proof Sys2Proof.Machine

/-! ### Encoding -/

/-- Words written out from the spec's tables decode to the instructions they stand for (30_encoding.md R73 to R84). -/
def Obligations.TableWordsDecodeAsTabled : Prop :=
  decodeTableWord 32 0x00006300 = some (.init 99) ∧
  decodeTableWord 32 0x00008F01 = some (.sendCommand 0x8F) ∧
  decodeTableWord 32 0x00035A02 = some (.sendData 3 0x5A) ∧
  decodeTableWord 32 0x00000273 = some (.setLed 7 2) ∧
  decodeTableWord 32 0x00003FB4 = some (.renderChar 3 0x3F true) ∧
  decodeTableWord 32 0x00003525 = some (.setDigit 2 0x35 false) ∧
  decodeTableWord 32 0x00352E3100000306 = some (.setText [0x31, 0x2E, 0x35]) ∧
  decodeTableWord 32 0x00000007 = some .getButtons ∧
  decodeTableWord 32 0x00000008 = some .getButtons64 ∧
  decodeTableWord 32 0x00001209 = some (.rotateBits 0x12) ∧
  decodeTableWord 32 0x0000000A = some (.reservedAB 0xA) ∧
  decodeTableWord 32 0x0000000F = some (.reservedCF 0xF) ∧
  decodeTableWord 8 0x40 = some .modeAuto ∧
  decodeTableWord 8 0x44 = some .modeFixed ∧
  decodeTableWord 8 0x42 = some .keyScan ∧
  decodeTableWord 8 0x8B = some (.displayOn 3) ∧
  decodeTableWord 8 0xC3 = some (.addr 3)

/-- Decoding the bits of a well-formed instruction gives it back, every operand at every value. -/
def Obligations.DecodeInvertsEncode : Prop :=
  ∀ (i : Instr) (c : Code), i.wellFormed = true → encode i = some c → decode c = .ok i

/-- Bits that decode are the encoding of the instruction they decode to, which is well formed: each word has one
meaning. -/
def Obligations.EncodeInvertsDecode : Prop :=
  ∀ (c : Code) (i : Instr), decode c = .ok i → i.wellFormed = true ∧ encode i = some c

/-- A request that R89 does not call illegal decodes to a request other than RESERVED. -/
def Obligations.LegalRequestsDecode : Prop :=
  ∀ r : Request, r.text.length = textWordsOf r.word → ¬ Illegal r →
    ∃ i, decodeRequest r = .ok i ∧ isRequest i = true ∧ ∀ w, i ≠ .reservedAB w ∧ i ≠ .reservedCF w

/-! ### The step -/

/-- R89, R172, R176: an illegal request faults with ILLEGAL_REQUEST before any event, initialized or not, and nothing
else changes but the latch and the port it was accepted from. -/
def Obligations.IllegalRequestFaultsBeforeAnyEvent : Prop :=
  ∀ (s : State) (r : Request) (rest : List Word), s.resetIn = none → s.wire = [] → s.seq = .idle →
    s.port = r.word :: (r.text ++ rest) → r.text.length = textWordsOf r.word → Illegal r →
    ∃ t, step s = .next t ∧ t.trace = s.trace ∧ SamePins s t ∧ Responds 2 0 false s t ∧ SameControl s t ∧
      t.faultLog = s.faultLog ++ [⟨r, 2, r.word⟩] ∧ t.req = r ∧ t.port = rest ∧ t.font = s.font ∧
      t.resetIn = none ∧ t.wire = [] ∧ SameSamples s t ∧ SameTransport s t

/-- A step runs the decoded instruction: the request at the head of an idle block's port, latched and taken off the
port; the latched request of a busy block; the wire command handed to the transport (the wire queue is the model's choice,
log entry 8). -/
def Obligations.StepRunsDecodedInstruction : Prop :=
  (∀ (s : State) (r : Request) (rest : List Word) (i : Instr), s.resetIn = none → s.wire = [] → s.seq = .idle →
    s.port = r.word :: (r.text ++ rest) → decodeRequest r = .ok i →
    step s = exec i { s with req := r, port := rest, seq := .busy }) ∧
  (∀ (s : State) (i : Instr), s.resetIn = none → s.wire = [] → s.seq = .busy → decodeRequest s.req = .ok i →
    step s = exec i s) ∧
  (∀ (s : State) (b : Byte) (rest : List Byte) (i : Instr), s.resetIn = none → s.wire = b :: rest →
    decodeWire b = .ok i → step s = exec i { s with wire := rest })

/-- An idle block waits while its port does not hold a whole request (10_state.md R30, 30_encoding.md R83, R91;
that waiting is a step is the model's choice, log entry 2). -/
def Obligations.IdleBlockWaitsForAWholeRequest : Prop :=
  ∀ s : State, s.resetIn = none → s.wire = [] → s.seq = .idle →
    (s.port = [] ∨ ∃ w rest, s.port = w :: rest ∧ opOf w = 6 ∧ rest.length < ((byteOf w).toNat + 3) / 4) →
    step s = .next s

/-- From a state that meets the invariant, a whole request on the port is accepted, taken off it word for word, and run
to its end: two response words, SEQ back to IDLE (10_state.md R30, 30_encoding.md R83, R91; that this is one step is
the model's choice, log entry 1). -/
def Obligations.EveryRequestRunsToItsEnd : Prop :=
  ∀ (s : State) (w : Word) (rest : List Word), Inv s → s.resetIn = none → s.port = w :: rest →
    textWordsOf w ≤ rest.length →
    ∃ t, step s = .next t ∧ t.req = ⟨w, rest.take (textWordsOf w)⟩ ∧ t.port = rest.drop (textWordsOf w) ∧
      textWordsOf w ≤ 64 ∧ t.seq = .idle ∧ ∃ w0 w1, t.rspPort = s.rspPort ++ [w0, w1]

/-! ### The transport -/

/-- SEND_BYTE shifts its byte out least significant bit first, 24 events, and leaves CLK high and DIO at bit 7
(40_transport.md R101). That SEND_BYTE is an instruction of its own, run whatever STB and CLK hold, is the model's
(log entry 9): the spec runs it with STB low and CLK high only (R102, 70_reset_and_hazards.md R194). -/
def Obligations.SendByteShiftsOutLsbFirst : Prop :=
  ∀ (v : Byte) (s : State), s.clk.dir = .out → s.dio.dir = .out →
    ∃ t, exec (.sendByte v) s = .next t ∧ t.trace = s.trace ++ sentByte v ∧ t.stb = s.stb ∧ t.clk = ⟨.out, .hi⟩ ∧
      t.dio = ⟨.out, levelOf (v.getLsbD 7)⟩ ∧ SameResponse s t ∧ SameControl s t ∧ t.faultLog = s.faultLog ∧
      SameLatchAndHost s t ∧ SameSamples s t

/-- R104: RECEIVE_BYTE takes eight samples, assembles them as `Σ b_i · 2^i`, and leaves DIO an output at X. That the
byte stands in the shift value, and that RECEIVE_BYTE is an instruction of its own, run whatever STB and CLK hold, is the
model's (log entry 9): the spec runs it with STB low and CLK high only (R105, 70_reset_and_hazards.md R194). -/
def Obligations.ReceiveByteAssemblesLsbFirst : Prop :=
  ∀ s : State, s.clk.dir = .out →
    ∃ t, exec .receiveByte s = .next t ∧ t.trace = s.trace ++ receivedByte (samplesOfByte s 0) ∧
      t.shift = receivedFrom s 0 ∧ SamplesTaken 8 s t ∧ t.stb = s.stb ∧ t.clk = ⟨.out, .hi⟩ ∧ t.dio = ⟨.out, .x⟩ ∧
      SameResponse s t ∧ SameControl s t ∧ t.faultLog = s.faultLog ∧ SameLatchAndHost s t

/-- MODE_AUTO, MODE_FIXED and DISPLAY_ON send their byte as a command frame (30_encoding.md R73, R74, R76; that a wire
command stands alone is the model's choice, log entry 8). -/
def Obligations.CommandRowsSendOneFrame : Prop :=
  ∀ (i : Instr) (c : Byte) (s : State),
    (i = .modeAuto ∧ c = 0x40) ∨ (i = .modeFixed ∧ c = 0x44) ∨ (∃ l : BitVec 3, i = .displayOn l ∧ c = 0x88 ||| l.setWidth 8) →
    PinsDriven s →
    ∃ t, exec i s = .next t ∧ t.trace = s.trace ++ sentFrame [c] ∧ BusAtRest (levelOf (c.getLsbD 7)) t ∧
      SameResponse s t ∧ SameControl s t ∧ t.faultLog = s.faultLog ∧ SameLatchAndHost s t ∧ SameSamples s t

/-- KEY_SCAN and ADDR open a frame with their byte and leave it open (30_encoding.md R75, R77; log entry 8). -/
def Obligations.OpeningRowsLeaveTheFrameOpen : Prop :=
  ∀ (i : Instr) (c : Byte) (s : State),
    (i = .keyScan ∧ c = 0x42) ∨ (∃ a : RamAddr, i = .addr a ∧ c = 0xC0 ||| a.setWidth 8) → PinsDriven s →
    ∃ t, exec i s = .next t ∧ t.trace = s.trace ++ .wr .stb false :: sentByte c ∧ t.stb = ⟨.out, .lo⟩ ∧
      t.clk = ⟨.out, .hi⟩ ∧ t.dio = ⟨.out, levelOf (c.getLsbD 7)⟩ ∧
      SameResponse s t ∧ SameControl s t ∧ t.faultLog = s.faultLog ∧ SameLatchAndHost s t ∧ SameSamples s t

/-- A pin is never written while the block does not drive it: the transport rows stop with the model's fault
(70_reset_and_hazards.md R199; log entry 10). -/
def Obligations.UndrivenPinIsNeverWritten : Prop :=
  (∀ (i : Instr) (s : State), i = .modeAuto ∨ i = .modeFixed ∨ (∃ l, i = .displayOn l) ∨ i = .keyScan ∨ (∃ a, i = .addr a) →
    s.stb.dir ≠ .out → exec i s = .fault (.pinNotOutput .stb)) ∧
  (∀ (v : Byte) (s : State), s.clk.dir ≠ .out →
    exec (.sendByte v) s = .fault (.pinNotOutput .clk) ∧ exec .receiveByte s = .fault (.pinNotOutput .clk)) ∧
  (∀ (v : Byte) (s : State), s.clk.dir = .out → s.dio.dir ≠ .out → exec (.sendByte v) s = .fault (.pinNotOutput .dio))

/-! ### The requests -/

/-- SEND_COMMAND completes with one command frame, and leaves everything else alone (41_command_protocol.md R115). -/
def Obligations.SendCommandSendsItsByte : Prop :=
  ∀ (c : Byte) (s : State), s.initialized = true → PinsDriven s →
    ∃ t, exec (.sendCommand c) s = .next t ∧ Completed (sentFrame [c]) (levelOf (c.getLsbD 7)) 0 false s t ∧
      SameSamples s t

/-- SEND_DATA completes with the frames [0x44], [0xC0 | address, data] (R116, R117). -/
def Obligations.SendDataWritesItsByte : Prop :=
  ∀ (a : RamAddr) (d : Byte) (s : State), s.initialized = true → PinsDriven s →
    ∃ t, exec (.sendData a d) s = .next t ∧ Completed (writeFrames a d) (levelOf (d.getLsbD 7)) 0 false s t ∧
      SameSamples s t

/-- INIT completes from every state, with its 467 events, the clamped level in INTENSITY, and POWER_ON and INITIALIZED
set (R118, R120, R121, R123). -/
def Obligations.InitCompletesFromEveryState : Prop :=
  ∀ (b : Byte) (s : State),
    ∃ t, exec (.init b) s = .next t ∧ t.trace = s.trace ++ initEvents (BitVec.ofNat 3 (min b.toNat 7)) ∧
      t.intensity = BitVec.ofNat 3 (min b.toNat 7) ∧ t.powerOn = true ∧ t.initialized = true ∧ BusAtRest .lo t ∧
      Responds 0 0 false s t ∧ t.faultLog = s.faultLog ∧ SameLatchAndHost s t ∧ SameSamples s t

/-- SET_LED completes with one write to the odd address `2 * position + 1`, all eight bits of color
(42_display_encoder.md R133). -/
def Obligations.SetLedWritesItsOddAddress : Prop :=
  ∀ (p : Pos) (c : Byte) (s : State), s.initialized = true → PinsDriven s →
    (ledAddress p).toNat = 2 * p.toNat + 1 ∧
    ∃ t, exec (.setLed p c) s = .next t ∧ Completed (writeFrames (ledAddress p) c) (levelOf (c.getLsbD 7)) 0 false s t ∧
      SameSamples s t

/-- RENDER_CHAR completes with one write to the even address `2 * position`, bit 7 forced on by `dot` (R134, R135). -/
def Obligations.RenderCharWritesItsEvenAddress : Prop :=
  ∀ (p : Pos) (x : Byte) (dot : Bool) (s : State), s.initialized = true → PinsDriven s →
    (rowAddress p).toNat = 2 * p.toNat ∧
    ∃ t, exec (.renderChar p x dot) s = .next t ∧
      Completed (writeFrames (rowAddress p) (x ||| if dot then 0x80 else 0))
        (levelOf (x.getLsbD 7 || dot)) 0 false s t ∧
      SameSamples s t

/-- R131: ROTATE_BITS returns its operand with the nibbles swapped, from every state, and touches nothing but the
response. -/
def Obligations.RotateBitsReturnsTheSwappedByte : Prop :=
  ∀ (x : Byte) (s : State),
    ∃ t, exec (.rotateBits x) s = .next t ∧ t.trace = s.trace ∧ SamePins s t ∧
      Responds 0 ((x.extractLsb' 0 4 ++ x.extractLsb' 4 4).setWidth 32) false s t ∧ SameControl s t ∧
      t.faultLog = s.faultLog ∧ SameLatchAndHost s t ∧ SameSamples s t ∧ SameTransport s t

/-- SET_DIGIT of a known code completes with six row writes (R137). -/
def Obligations.SetDigitWritesSixRows : Prop :=
  ∀ (p : Pos) (c pattern : Byte) (dot : Bool) (s : State), s.initialized = true → PinsDriven s →
    lookup s.font c = some pattern →
    ∃ t, exec (.setDigit p c dot) s = .next t ∧
      Completed ((List.range 6).flatMap (fun r => writeFrames (BitVec.ofNat 4 (2 * r)) (digitByte pattern r p dot)))
        (levelOf ((digitByte pattern 5 p dot).getLsbD 7)) 0 false s t ∧
      SameSamples s t

/-- SET_DIGIT of an unknown code faults with UNKNOWN_CHAR before any event (R136, 60_exceptions.md R174). -/
def Obligations.SetDigitOfAnUnknownCodeFaults : Prop :=
  ∀ (p : Pos) (c : Byte) (dot : Bool) (s : State), s.initialized = true → lookup s.font c = none →
    ∃ t, exec (.setDigit p c dot) s = .next t ∧ FaultedAtOnce 1 (c.setWidth 32) s t

/-- SET_TEXT of a text whose shown characters are known completes: the diagnostic if the dot is dropped, the row-plane 7
write, then the rows 0..6 in their net placement (42_display_encoder.md R140, R142, R146). -/
def Obligations.SetTextWritesEightRowPlanes : Prop :=
  ∀ (x : List Byte) (s : State), s.initialized = true → PinsDriven s → allKnown s.font (shownChars x) = true →
    ∃ t, exec (.setText x) s = .next t ∧
      Completed (textStartEvents x ++ textRowEvents s.font x)
        (levelOf ((placedRow s.font (shownChars x) 6).getLsbD 7)) 0 (dotIsDropped x) s t ∧
      SameSamples s t

/-- R145: a SET_TEXT with an unknown shown character faults with UNKNOWN_CHAR after its row-plane 7 write and before any
other row; the info is the first unknown code in the order of the layout buffer; the bus is idle. An unknown character
that is not shown never faults. -/
def Obligations.SetTextOfAnUnknownCodeFaults : Prop :=
  (∀ (x : List Byte) (c : Byte) (s : State), s.initialized = true → PinsDriven s →
    firstUnknown s.font (layout (x.filter (fun c => c != dotCode))) = some c →
    ∃ t, exec (.setText x) s = .next t ∧ t.trace = s.trace ++ textStartEvents x ∧
      BusAtRest (levelOf ((dotPlane x).getLsbD 7)) t ∧ Responds 1 0 false s t ∧ SameControl s t ∧
      t.faultLog = s.faultLog ++ [⟨s.req, 1, c.setWidth 32⟩] ∧ SameLatchAndHost s t ∧ SameSamples s t) ∧
  (∀ (x : List Byte) (s : State), s.initialized = true → PinsDriven s → allKnown s.font (shownChars x) = true →
    ∃ t, exec (.setText x) s = .next t ∧ t.rspStatus = 0)

/-- GET_BUTTONS and GET_BUTTONS64 complete with the same key frame over the same 32 samples, and differ in how they
combine the four bytes (43_key_scanner.md R160 to R163). -/
def Obligations.KeyReadsCombineTheSameFourBytes : Prop :=
  ∀ s : State, s.initialized = true → PinsDriven s →
    (∃ t, exec .getButtons s = .next t ∧ SamplesTaken 32 s t ∧
      Completed (keyFrameEvents [samplesOfByte s 0, samplesOfByte s 1, samplesOfByte s 2, samplesOfByte s 3]) .x
        ((receivedFrom s 0).setWidth 32 ||| (receivedFrom s 1).setWidth 32 <<< 1 |||
          (receivedFrom s 2).setWidth 32 <<< 2 ||| (receivedFrom s 3).setWidth 32 <<< 3) false s t) ∧
    (∃ t, exec .getButtons64 s = .next t ∧ SamplesTaken 32 s t ∧
      Completed (keyFrameEvents [samplesOfByte s 0, samplesOfByte s 1, samplesOfByte s 2, samplesOfByte s 3]) .x
        ((receivedFrom s 0).setWidth 32 ||| (receivedFrom s 1).setWidth 32 <<< 8 |||
          (receivedFrom s 2).setWidth 32 <<< 16 ||| (receivedFrom s 3).setWidth 32 <<< 24) false s t)

/-- The results of the two key reads as functions of four bytes: the overlapping OR fits in 11 bits, and the
concatenation gives each byte back (R161, R162, R163). -/
def Obligations.KeyCombinationsKeepTheirBytes : Prop :=
  ∀ k0 k1 k2 k3 : Byte,
    (combineOverlap k0 k1 k2 k3).toNat ≤ 0x7FF ∧
    combineConcat k0 k1 k2 k3 =
      (k0.setWidth 32 ||| k1.setWidth 32 <<< 8 ||| k2.setWidth 32 <<< 16 ||| k3.setWidth 32 <<< 24) ∧
    (combineConcat k0 k1 k2 k3).toNat = k0.toNat + k1.toNat * 256 + k2.toNat * 256 ^ 2 + k3.toNat * 256 ^ 3

/-- A RESERVED request faults with ILLEGAL_REQUEST before any event, initialized or not (30_encoding.md R89,
60_exceptions.md R172). -/
def Obligations.ReservedOpcodesFault : Prop :=
  ∀ (w : Word) (s : State),
    (∃ t, exec (.reservedAB w) s = .next t ∧ FaultedAtOnce 2 w s t) ∧
    (∃ t, exec (.reservedCF w) s = .next t ∧ FaultedAtOnce 2 w s t)

/-! ### The envelope -/

/-- R173: every request but INIT, ROTATE_BITS and the RESERVED words faults with NOT_INITIALIZED before any event while
INITIALIZED is 0, the info being its opcode; INIT and ROTATE_BITS end OK whatever INITIALIZED is. -/
def Obligations.GuardedRequestsNeedInit : Prop :=
  (∀ (i : Instr) (op : BitVec 4) (s : State), guardedOpcode i = some op → s.initialized = false →
    ∃ t, exec i s = .next t ∧ FaultedAtOnce 3 (op.setWidth 32) s t) ∧
  (∀ (b : Byte) (s : State), ∃ t, exec (.init b) s = .next t ∧ t.rspStatus = 0) ∧
  (∀ (x : Byte) (s : State), ∃ t, exec (.rotateBits x) s = .next t ∧ t.rspStatus = 0)

/-- What a request ends in says what happened: OK and FAULT_LOG as it was; or a fault, which has recorded (REQ, code, info),
has a zero result and diagnostic and has changed no control register and no host input, its code and info being an
unknown character of the request, the request word of a RESERVED request, or the opcode of a guarded request before INIT
(60_exceptions.md R170, R171, R177). -/
def Obligations.FaultEntryRecordsAndChangesNothingElse : Prop :=
  ∀ (i : Instr) (s t : State), isRequest i = true → exec i s = .next t →
    t.seq = .idle ∧
    ((t.rspStatus = 0 ∧ t.faultLog = s.faultLog) ∨
      ∃ status info, Responds status 0 false s t ∧ t.faultLog = s.faultLog ++ [⟨s.req, status, info⟩] ∧
        SameControl s t ∧ SameLatchAndHost s t ∧ SameSamples s t ∧
        ((status = 1 ∧ ∃ c : Byte, info = c.setWidth 32 ∧ lookup s.font c = none ∧
            ((∃ p dot, i = .setDigit p c dot) ∨ ∃ x, i = .setText x ∧ c ∈ x)) ∨
          (status = 2 ∧ (i = .reservedAB info ∨ i = .reservedCF info)) ∨
          (status = 3 ∧ s.initialized = false ∧ ∃ op, guardedOpcode i = some op ∧ info = op.setWidth 32)))

/-- INTENSITY, POWER_ON and INITIALIZED are written by INIT alone (10_state.md R27, R28, R29). -/
def Obligations.OnlyInitWritesTheControlRegisters : Prop :=
  ∀ (i : Instr) (s t : State), (∀ b, i ≠ .init b) → exec i s = .next t → SameControl s t

/-- No request stops the machine from a state that meets the invariant: each ends in a next state
(70_reset_and_hazards.md R199;
the model's check of a pin's direction is log entry 10). -/
def Obligations.NoRequestStopsTheMachine : Prop :=
  ∀ (i : Instr) (s : State), Inv s → isRequest i = true → ∃ t, exec i s = .next t

/-- The count of events of every request, from a state that meets the invariant (R201). -/
def Obligations.RequestsHaveTheirEventCounts : Prop :=
  ∀ (i : Instr) (s t : State), Inv s → isRequest i = true → exec i s = .next t →
    t.trace.length = s.trace.length + eventCount t.rspStatus i

/-- Nothing an instruction does depends on INTENSITY, on the last response, or on the transport's shift value and counter
(10_state.md R27, R31, R33). -/
def Obligations.UnreadRegistersDoNotMatter : Prop :=
  ∀ (i : Instr) (s t : State) (x : BitVec 3) (st : BitVec 4) (res : Word) (dg : Bool) (sh : Byte) (bc : BitVec 3),
    exec i s = .next t →
    ∃ u, exec i { s with intensity := x, rspStatus := st, rspResult := res, rspDiag := dg, shift := sh, bitCount := bc }
        = .next u ∧
      u.trace = t.trace ∧ SamePins t u ∧ u.powerOn = t.powerOn ∧ u.initialized = t.initialized ∧
      u.faultLog = t.faultLog ∧ SameLatchAndHost t u ∧ SameSamples t u ∧ u.seq = t.seq ∧ u.rspPort = t.rspPort ∧
      (isRequest i = true → u.rspStatus = t.rspStatus ∧ u.rspResult = t.rspResult ∧ u.rspDiag = t.rspDiag)

/-! ### Trace, pins, font -/

/-- An instruction only appends to TRACE, and the pins after it are what the appended events make of the pins before it:
DIR changes by `Cfg` alone, LVL by `Cfg` and `Wr` alone (10_state.md R22, R26). -/
def Obligations.PinsAreWhatTheTraceMakesOfThem : Prop :=
  ∀ (i : Instr) (s t : State), exec i s = .next t →
    ∃ events, t.trace = s.trace ++ events ∧ t.stb = pinAfter .stb s.stb events ∧ t.clk = pinAfter .clk s.clk events ∧
      t.dio = pinAfter .dio s.dio events

/-- A step with no reset due only appends to TRACE, to FAULT_LOG and to the response port (10_state.md R26, R32). -/
def Obligations.StepOnlyAppends : Prop :=
  ∀ s t : State, s.resetIn = none → step s = .next t →
    s.trace <+: t.trace ∧ s.faultLog <+: t.faultLog ∧ s.rspPort <+: t.rspPort

/-- No step writes the font (20_memory.md R45; that the binding is a field of State is the model's choice, log entry 7). -/
def Obligations.NoStepWritesTheFont : Prop := ∀ s t : State, step s = .next t → t.font = s.font

/-- R72: whatever one step puts on the wires is INIT's pin configuration, the dot diagnostic, and frames of the four
shapes. -/
def Obligations.OnlyTheFourFrameShapesAreSent : Prop :=
  ∀ s t : State, Inv s → s.resetIn = none → step s = .next t →
    ∃ segments : List Segment, (∀ g ∈ segments, g.wellSized) ∧ t.trace = s.trace ++ segments.flatMap Segment.events

/-! ### The invariant and reset -/

/-- R36: the values the spec gives for reset. -/
def Obligations.ResetValuesAreTheSpecs : Prop := BlockReset State.reset

/-- The invariant of the machine holds right after reset. -/
def Obligations.ResetMeetsTheInvariant : Prop := Inv State.reset

/-- R23: a step keeps the invariant of the machine, from every state that meets it. -/
def Obligations.StepKeepsTheInvariant : Prop := ∀ s t : State, Inv s → step s = .next t → Inv t

/-- R190: a reset of an idle block puts every element of its state to its reset value and appends no event; what is the
host's stays, which is the model's choice (log entry 11). -/
def Obligations.ResetWhenIdle : Prop :=
  ∀ s : State, s.resetIn = some 0 →
    ∃ t, step s = .next t ∧ BlockReset t ∧ t.port = s.port ∧ t.rspPort = s.rspPort ∧ t.font = s.font ∧
      SameSamples s t ∧ t.resetIn = none ∧ t.wire = []

/-- R191: a reset that lands inside a request, after n of its events, ends it with no response and leaves the block
reset; only the samples of those n events were taken. That the count starts at acceptance is the model's choice
(log entry 11). -/
def Obligations.ResetInsideARequestLeavesNoResponse : Prop :=
  ∀ (s u : State) (n : Nat) (events : List Event), s.resetIn = some (n + 1) → hasWork s = true →
    runNext s = .next u → u.trace = s.trace ++ events → n ≤ events.length →
    ∃ t, step s = .next t ∧ BlockReset t ∧ t.rspPort = s.rspPort ∧ t.port = u.port ∧ t.font = s.font ∧
      SamplesTaken ((events.take n).countP (fun e => match e with | .rd _ _ => true | _ => false)) s t

/-! ### What the requests compute -/

/-- R132, R130: Rot swaps the nibbles, is its own inverse, distributes over OR, and moves bit q to bit (q + 4) mod 8. -/
def Obligations.RotIsANibbleSwap : Prop :=
  ∀ x y : Byte, rot x = x.extractLsb' 0 4 ++ x.extractLsb' 4 4 ∧ rot (rot x) = x ∧ rot (rot (rot (rot x))) = x ∧
    rot (x ||| y) = rot x ||| rot y ∧ ∀ q < 8, (rot x).getLsbD ((q + 4) % 8) = x.getLsbD q

/-- R141: without a '.' there is no dot byte; the dot position is never past 7; the dot is dropped when the position is
negative, and otherwise the placed byte rotates to `0x80 >> realPos`. Under the STRIPPED basis a text whose only '.' is its
last character is past the table (the model takes ORIGINAL, log entry 15). -/
def Obligations.DotByteRotatesToItsPosition : Prop :=
  (∀ t : List Byte, t.findIdx? (· == dotCode) = none → dotByte t = .noDot) ∧
  (∀ (t : List Byte) (d : Nat), t.findIdx? (· == dotCode) = some d →
    realPos t d ≤ 7 ∧
    (realPos t d < 0 → dotByte t = .dropped) ∧
    (0 ≤ realPos t d → realPos t d ≤ 3 → dotByte t = .placed (8 >>> (realPos t d).toNat)) ∧
    (4 ≤ realPos t d → dotByte t = .placed (128 >>> (realPos t d - 4).toNat)) ∧
    (0 ≤ realPos t d → ∃ b, dotByte t = .placed b ∧ rot b = 0x80#8 >>> (realPos t d).toNat)) ∧
  (∀ u : List Byte, dotCode ∉ u → dotByteOn .stripped (u ++ [dotCode]) = .beyond)

/-- R142: the dot is dropped exactly when the text is longer than 8 characters past its first '.'; the request then goes
on, its diagnostic before any pin event, row-plane 7 zero, the diagnostic bit 1 and the status OK. -/
def Obligations.DotIsDroppedWhenTheTextIsTooLong : Prop :=
  (∀ t : List Byte, dotByte t = .dropped ↔ ∃ d, t.findIdx? (· == dotCode) = some d ∧ 8 + d < t.length) ∧
  (∀ t : List Byte, dotByte t = .dropped → 8 < t.length) ∧
  (∀ (x : List Byte) (s : State), s.initialized = true → PinsDriven s → allKnown s.font (shownChars x) = true →
    dotByte x = .dropped →
    ∃ t, exec (.setText x) s = .next t ∧ t.rspDiag = true ∧ t.rspStatus = 0 ∧
      t.trace = s.trace ++ .dotDropped :: (writeFrames 14 0 ++ textRowEvents s.font x))

/-- R143: the layout buffer has 8 characters; the k-th of the n shown characters stands at (n - 1 - k + 4) mod 8 and every
other place is a space. -/
def Obligations.LayoutReversesPadsAndSwaps : Prop :=
  ∀ u : List Byte, (layout u).length = 8 ∧
    (∀ k < (u.take 8).length, (layout u)[((u.take 8).length - 1 - k + 4) % 8]? = u[k]?) ∧
    (∀ m < 8, (u.take 8).length ≤ m → (layout u)[(m + 4) % 8]? = some spaceCode)

/-- R146: rotation undoes the half swap, so the byte written to row-plane r is the net placement of the shown
characters. -/
def Obligations.RotatedRowsAreTheNetPlacement : Prop :=
  ∀ (font : List (Byte × Byte)) (u : List Byte) (r : Nat) (row : Byte), rowByte font (layout u) r = .ok row →
    rot row = placedRow font (u.take 8) r

/-! ### The chip, as the reference observer sees it (20_memory.md R61 to R67) -/

/-- The observer's RAM stays in canonical form along every trace (the form is the model's choice, log entry 22). -/
def Obligations.ObserverKeepsRamCanonical : Prop :=
  ∀ (trace : List Event) (s0 : Chip), s0.ram.wf → (observe trace s0).ram.wf

/-- A byte written to the RAM is read back, UNKNOWN included; every other address keeps its byte; and two canonical
memories that read alike are the same list (the form is the model's choice, log entry 22). -/
def Obligations.RamReadsWhatWasWritten : Prop :=
  (∀ (m : Memory) (a : RamAddr) (d : Option Byte) (x : Nat), m.wf →
    readByte (writeByte m a d) x = if x = a.toNat then d else readByte m x) ∧
  (∀ m n : Memory, m.wf → n.wf → (∀ x, readByte m x = readByte n x) → m = n)

/-- R122: after INIT's frames (mode, display on, clear, in that order) the chip's 16 bytes are 0, MODE is AUTO and DISPLAY is
on at the clamped level, whatever the chip held before. -/
def Obligations.InitBlanksTheChip : Prop :=
  ∀ (b : Byte) (s t : State) (s0 : Chip), (observeFrom (.start unknownChip) s.trace).frame = none →
    exec (.init b) s = .next t →
    t.trace = s.trace ++ initEvents (BitVec.ofNat 3 (min b.toNat 7)) ∧
    (∀ x < 16, readByte (observe t.trace s0).ram x = some 0) ∧
    (observe t.trace s0).mode = some .auto ∧
    (observe t.trace s0).display = some (true, BitVec.ofNat 3 (min b.toNat 7)) ∧
    (observe t.trace s0).keysRead = (observe s.trace s0).keysRead ∧
    (observe t.trace s0).err = (observe s.trace s0).err

/-- SEND_DATA, SET_LED and RENDER_CHAR write one byte of the chip's RAM, at the address their operands give; every other
byte reads as before, MODE becomes FIXED, and DISPLAY, KEYS_READ and ERR stay (R64, R65). -/
def Obligations.DisplayWritesReachOneRamByte : Prop :=
  ∀ (i : Instr) (a : RamAddr) (d : Byte) (s : State) (s0 : Chip), Inv s → s.initialized = true →
    (i = .sendData a d) ∨ (∃ p, i = .setLed p d ∧ a = ledAddress p) ∨
      (∃ p x dot, i = .renderChar p x dot ∧ a = rowAddress p ∧ d = (x ||| if dot then 0x80 else 0)) →
    ∃ t, exec i s = .next t ∧
      (∀ x, readByte (observe t.trace s0).ram x = if x = a.toNat then some d else readByte (observe s.trace s0).ram x) ∧
      (observe t.trace s0).mode = some .fixed ∧ (observe t.trace s0).ptr = some a ∧
      (observe t.trace s0).display = (observe s.trace s0).display ∧
      (observe t.trace s0).keysRead = (observe s.trace s0).keysRead ∧
      (observe t.trace s0).err = (observe s.trace s0).err

/-- R138: SET_DIGIT replaces row bytes 0..5 whole, with bytes that have at most bit `position` set, and bit 7 with the dot;
it leaves row-planes 6 and 7 and every LED byte alone; the six bytes carry bits 0..5 of the pattern, and no other. -/
def Obligations.SetDigitReplacesSixRowBytes : Prop :=
  (∀ (p : Pos) (c pattern : Byte) (dot : Bool) (s : State) (s0 : Chip), Inv s → s.initialized = true →
    lookup s.font c = some pattern →
    ∃ t, exec (.setDigit p c dot) s = .next t ∧
      ∀ x, readByte (observe t.trace s0).ram x =
        if x < 12 ∧ x % 2 = 0 then some (digitByte pattern (x / 2) p dot) else readByte (observe s.trace s0).ram x) ∧
  (∀ (pattern : Byte) (p : Pos) (dot : Bool) (r q : Nat), q ≠ p.toNat →
    (digitByte pattern r p dot).getLsbD q = (dot && q == 7)) ∧
  (∀ (pattern : Byte) (p : Pos),
    ((List.range 6).map (fun r => (if (digitByte pattern r p false).getLsbD p.toNat then 2 ^ r else 0))).sum =
      (pattern.extractLsb' 0 6).toNat)

/-- R148, R146: a SET_TEXT that does not fault writes all eight even addresses, the text right-aligned and the dot at its
place, and no odd address. -/
def Obligations.SetTextShowsTheTextOnTheChip : Prop :=
  ∀ (x : List Byte) (s : State) (s0 : Chip), Inv s → s.initialized = true → allKnown s.font (shownChars x) = true →
    ∃ t, exec (.setText x) s = .next t ∧
      ∀ a, readByte (observe t.trace s0).ram a =
        if a = 14 then some (dotPlane x)
        else if a < 14 ∧ a % 2 = 0 then some (placedRow s.font (shownChars x) (a / 2))
        else readByte (observe s.trace s0).ram a

/-- R145: a SET_TEXT that faults with UNKNOWN_CHAR has written row-plane 7 and no other byte of the chip's RAM. -/
def Obligations.FaultedSetTextWritesRowPlaneSevenOnly : Prop :=
  ∀ (x : List Byte) (c : Byte) (s : State) (s0 : Chip), Inv s → s.initialized = true →
    firstUnknown s.font (layout (x.filter (fun c => c != dotCode))) = some c →
    ∃ t, exec (.setText x) s = .next t ∧ t.rspStatus = 1 ∧
      ∀ a, readByte (observe t.trace s0).ram a =
        if a = 14 then some (dotPlane x) else readByte (observe s.trace s0).ram a

/-- SEND_COMMAND never changes a byte of the chip's RAM, whatever the command (41_command_protocol.md R115,
20_memory.md R65). -/
def Obligations.SendCommandLeavesTheRamAlone : Prop :=
  ∀ (c : Byte) (s : State) (s0 : Chip), Inv s → s.initialized = true →
    ∃ t, exec (.sendCommand c) s = .next t ∧ (observe t.trace s0).ram = (observe s.trace s0).ram

/-- What the wire command rows do to the chip: MODE_AUTO and MODE_FIXED set MODE, DISPLAY_ON sets DISPLAY, and KEY_SCAN and
ADDR, whose frames are still open, nothing yet (R62, R64). That a row stands alone is the model's choice (log entry 8), and so is that a frame acts when it
closes, on which the clauses of KEY_SCAN and ADDR rest (log entry 13): R67 leaves a partial frame open. -/
def Obligations.CommandRowsReachTheChip : Prop :=
  ∀ (s : State) (s0 : Chip), Inv s → s.initialized = true →
    (∃ t, exec .modeAuto s = .next t ∧ observe t.trace s0 = { observe s.trace s0 with mode := some .auto }) ∧
    (∃ t, exec .modeFixed s = .next t ∧ observe t.trace s0 = { observe s.trace s0 with mode := some .fixed }) ∧
    (∀ l, ∃ t, exec (.displayOn l) s = .next t ∧
      observe t.trace s0 = { observe s.trace s0 with display := some (true, l) }) ∧
    (∃ t, exec .keyScan s = .next t ∧ observe t.trace s0 = observe s.trace s0) ∧
    (∀ a, ∃ t, exec (.addr a) s = .next t ∧ observe t.trace s0 = observe s.trace s0)

/-- R66: a key read adds its four bytes to KEYS_READ, sets MODE to AUTO, and leaves the RAM alone. -/
def Obligations.KeyReadsAreRecordedByTheObserver : Prop :=
  ∀ (i : Instr) (s : State) (s0 : Chip), i = .getButtons ∨ i = .getButtons64 → Inv s → s.initialized = true →
    ∃ t, exec i s = .next t ∧
      observe t.trace s0 = { observe s.trace s0 with
        mode := some .auto
        keysRead := (observe s.trace s0).keysRead ++
          [[receivedFrom s 0, receivedFrom s 1, receivedFrom s 2, receivedFrom s 3]] }

/-- A second write of the same byte to the same address leaves the RAM as the first did (R53). -/
def Obligations.RepeatedDisplayWriteIsIdempotent : Prop :=
  ∀ (a : RamAddr) (d : Byte) (s t u : State) (s0 : Chip), Inv s → s.initialized = true → s0.ram.wf →
    exec (.sendData a d) s = .next t → exec (.sendData a d) t = .next u →
    (observe u.trace s0).ram = (observe t.trace s0).ram

/-! ### The assembler -/

/-- The pseudo-forms of the assembler (30_encoding.md R93). -/
def Obligations.AssemblerExpandsPseudoForms : Prop :=
  assemble "init".toList = assemble "init 7".toList ∧
  assemble "init 7".toList = .ok (some (.init 7)) ∧
  assemble "render_char 3, 0x3F".toList = .ok (some (.renderChar 3 0x3F false)) ∧
  assemble "render_char 3, 0x3F, dot".toList = .ok (some (.renderChar 3 0x3F true)) ∧
  assemble "set_digit 2, '5'".toList = .ok (some (.setDigit 2 0x35 false)) ∧
  assemble "set_digit 2, '5', dot".toList = .ok (some (.setDigit 2 0x35 true)) ∧
  assemble "init 256".toList = .error .outOfRange ∧
  assemble "init 255".toList = .ok (some (.init 255))
end

