-- ==== Sys2Proof/Laws/Encoding.lean ====
section
/-! SUPPORT. The fields of an encoded request word, and the text words of a text read back. -/

namespace Sys2Proof

section Fields

variable (op : BitVec 4) (pos : Pos) (dot : Bool) (byte : Byte) (address : RamAddr)

@[simp] theorem opOf_requestWord : opOf (requestWord op pos dot byte address) = op := by
  ext i hi
  simp only [opOf, requestWord, BitVec.getElem_extractLsb', BitVec.getLsbD_append]
  simp [hi]

@[simp] theorem posOf_requestWord : posOf (requestWord op pos dot byte address) = pos := by
  ext i hi
  simp only [posOf, requestWord, BitVec.getElem_extractLsb', BitVec.getLsbD_append]
  simp [hi]

@[simp] theorem dotOf_requestWord : dotOf (requestWord op pos dot byte address) = dot := by
  simp only [dotOf, requestWord, BitVec.getLsbD_append]
  simp

@[simp] theorem byteOf_requestWord : byteOf (requestWord op pos dot byte address) = byte := by
  ext i hi
  simp only [byteOf, requestWord, BitVec.getElem_extractLsb', BitVec.getLsbD_append]
  interval_cases i <;> simp

@[simp] theorem addrOf_requestWord : addrOf (requestWord op pos dot byte address) = address := by
  ext i hi
  simp only [addrOf, requestWord, BitVec.getElem_extractLsb', BitVec.getLsbD_append]
  interval_cases i <;> simp

@[simp] theorem rsvOf_requestWord : rsvOf (requestWord op pos dot byte address) = 0 := by
  ext i hi
  simp only [rsvOf, requestWord, BitVec.getElem_extractLsb', BitVec.getLsbD_append]
  interval_cases i <;> simp

end Fields

/-- A request word is made of its fields, when RSV is 0. -/
theorem requestWord_fields (w : Word) (h : rsvOf w = 0) :
    requestWord (opOf w) (posOf w) (dotOf w) (byteOf w) (addrOf w) = w := by
  have rsv (j : Nat) (hj : j < 12) : w.getLsbD (20 + j) = false := by
    have := congrArg (fun v : BitVec 12 => v.getLsbD j) h
    simpa [rsvOf, hj] using this
  ext i hi
  rw [← BitVec.getLsbD_eq_getElem, ← BitVec.getLsbD_eq_getElem]
  simp only [requestWord, opOf, posOf, dotOf, byteOf, addrOf, BitVec.getLsbD_append]
  by_cases h20 : 20 ≤ i
  · obtain ⟨j, rfl⟩ := Nat.exists_eq_add_of_le h20
    have hj : j < 12 := by omega
    rw [rsv j hj]
    interval_cases j <;> simp
  · interval_cases i <;> simp

@[simp] theorem lanesOf_wordOfLanes (c0 c1 c2 c3 : Byte) : lanesOf (wordOfLanes c0 c1 c2 c3) = [c0, c1, c2, c3] := by
  simp only [lanesOf, wordOfLanes, List.cons.injEq, and_true]
  refine ⟨?_, ?_, ?_, ?_⟩ <;>
  · ext i hi
    rw [← BitVec.getLsbD_eq_getElem, ← BitVec.getLsbD_eq_getElem]
    simp only [BitVec.getLsbD_extractLsb', BitVec.getLsbD_append]
    interval_cases i <;> simp

/-- A word is made of its lanes (30_encoding.md R86). -/
theorem wordOfLanes_lanesOf (w : Word) :
    wordOfLanes (w.extractLsb' 0 8) (w.extractLsb' 8 8) (w.extractLsb' 16 8) (w.extractLsb' 24 8) = w := by
  ext i hi
  rw [← BitVec.getLsbD_eq_getElem, ← BitVec.getLsbD_eq_getElem]
  simp only [wordOfLanes, BitVec.getLsbD_append]
  interval_cases i <;> simp

/-- The lanes of a packed text are the text and zero padding (R86). -/
theorem lanes_packText (t : List Byte) :
    ∃ n, (packText t).flatMap lanesOf = t ++ List.replicate n 0 := by
  induction t using packText.induct with
  | case1 => exact ⟨0, rfl⟩
  | case2 c0 => exact ⟨3, by simp [packText]⟩
  | case3 c0 c1 => exact ⟨2, by simp [packText]⟩
  | case4 c0 c1 c2 => exact ⟨1, by simp [packText]⟩
  | case5 c0 c1 c2 c3 rest ih =>
    obtain ⟨n, h⟩ := ih
    exact ⟨n, by simp [packText, h]⟩

/-- A packed text has `ceil(LEN / 4)` words (R86). -/
theorem length_packText (t : List Byte) : (packText t).length = (t.length + 3) / 4 := by
  induction t using packText.induct with
  | case1 => rfl
  | case2 c0 => simp [packText]
  | case3 c0 c1 => simp [packText]
  | case4 c0 c1 c2 => simp [packText]
  | case5 c0 c1 c2 c3 rest ih => simp only [packText, List.length_cons, ih]; omega

end Sys2Proof
end

