-- ==== Sys2Proof/Laws/State.lean ====
section
/-! SUPPORT. One lemma per field per update of State, so that no later proof unfolds a record update. -/

namespace Sys2Proof.Machine

variable (s : State)

/-! ### emit -/

@[simp] theorem emit_stb (e : Event) : (emit e s).stb = s.stb := (rfl)
@[simp] theorem emit_clk (e : Event) : (emit e s).clk = s.clk := (rfl)
@[simp] theorem emit_dio (e : Event) : (emit e s).dio = s.dio := (rfl)
@[simp] theorem emit_intensity (e : Event) : (emit e s).intensity = s.intensity := (rfl)
@[simp] theorem emit_powerOn (e : Event) : (emit e s).powerOn = s.powerOn := (rfl)
@[simp] theorem emit_initialized (e : Event) : (emit e s).initialized = s.initialized := (rfl)
@[simp] theorem emit_seq (e : Event) : (emit e s).seq = s.seq := (rfl)
@[simp] theorem emit_req (e : Event) : (emit e s).req = s.req := (rfl)
@[simp] theorem emit_rspStatus (e : Event) : (emit e s).rspStatus = s.rspStatus := (rfl)
@[simp] theorem emit_rspResult (e : Event) : (emit e s).rspResult = s.rspResult := (rfl)
@[simp] theorem emit_rspDiag (e : Event) : (emit e s).rspDiag = s.rspDiag := (rfl)
@[simp] theorem emit_faultLog (e : Event) : (emit e s).faultLog = s.faultLog := (rfl)
@[simp] theorem emit_events (e : Event) : (emit e s).events = e :: s.events := (rfl)
@[simp] theorem emit_trace (e : Event) : (emit e s).trace = s.trace ++ [e] := List.reverse_cons
@[simp] theorem emit_shift (e : Event) : (emit e s).shift = s.shift := (rfl)
@[simp] theorem emit_bitCount (e : Event) : (emit e s).bitCount = s.bitCount := (rfl)
@[simp] theorem emit_port (e : Event) : (emit e s).port = s.port := (rfl)
@[simp] theorem emit_rspPort (e : Event) : (emit e s).rspPort = s.rspPort := (rfl)
@[simp] theorem emit_font (e : Event) : (emit e s).font = s.font := (rfl)
@[simp] theorem emit_dioLevels (e : Event) : (emit e s).dioLevels = s.dioLevels := (rfl)
@[simp] theorem emit_sampleCount (e : Event) : (emit e s).sampleCount = s.sampleCount := (rfl)
@[simp] theorem emit_resetIn (e : Event) : (emit e s).resetIn = s.resetIn := (rfl)
@[simp] theorem emit_wire (e : Event) : (emit e s).wire = s.wire := (rfl)

/-! ### setPin -/

@[simp] theorem setPin_stb_stb (v : PinState) : (setPin .stb v s).stb = v := (rfl)
@[simp] theorem setPin_stb_clk (v : PinState) : (setPin .stb v s).clk = s.clk := (rfl)
@[simp] theorem setPin_stb_dio (v : PinState) : (setPin .stb v s).dio = s.dio := (rfl)
@[simp] theorem setPin_clk_stb (v : PinState) : (setPin .clk v s).stb = s.stb := (rfl)
@[simp] theorem setPin_clk_clk (v : PinState) : (setPin .clk v s).clk = v := (rfl)
@[simp] theorem setPin_clk_dio (v : PinState) : (setPin .clk v s).dio = s.dio := (rfl)
@[simp] theorem setPin_dio_stb (v : PinState) : (setPin .dio v s).stb = s.stb := (rfl)
@[simp] theorem setPin_dio_clk (v : PinState) : (setPin .dio v s).clk = s.clk := (rfl)
@[simp] theorem setPin_dio_dio (v : PinState) : (setPin .dio v s).dio = v := (rfl)
@[simp] theorem setPin_intensity (p : Pin) (v : PinState) : (setPin p v s).intensity = s.intensity := by cases p <;> rfl
@[simp] theorem setPin_powerOn (p : Pin) (v : PinState) : (setPin p v s).powerOn = s.powerOn := by cases p <;> rfl
@[simp] theorem setPin_initialized (p : Pin) (v : PinState) : (setPin p v s).initialized = s.initialized := by cases p <;> rfl
@[simp] theorem setPin_seq (p : Pin) (v : PinState) : (setPin p v s).seq = s.seq := by cases p <;> rfl
@[simp] theorem setPin_req (p : Pin) (v : PinState) : (setPin p v s).req = s.req := by cases p <;> rfl
@[simp] theorem setPin_rspStatus (p : Pin) (v : PinState) : (setPin p v s).rspStatus = s.rspStatus := by cases p <;> rfl
@[simp] theorem setPin_rspResult (p : Pin) (v : PinState) : (setPin p v s).rspResult = s.rspResult := by cases p <;> rfl
@[simp] theorem setPin_rspDiag (p : Pin) (v : PinState) : (setPin p v s).rspDiag = s.rspDiag := by cases p <;> rfl
@[simp] theorem setPin_faultLog (p : Pin) (v : PinState) : (setPin p v s).faultLog = s.faultLog := by cases p <;> rfl
@[simp] theorem setPin_events (p : Pin) (v : PinState) : (setPin p v s).events = s.events := by cases p <;> rfl
@[simp] theorem setPin_trace (p : Pin) (v : PinState) : (setPin p v s).trace = s.trace := by cases p <;> rfl
@[simp] theorem setPin_shift (p : Pin) (v : PinState) : (setPin p v s).shift = s.shift := by cases p <;> rfl
@[simp] theorem setPin_bitCount (p : Pin) (v : PinState) : (setPin p v s).bitCount = s.bitCount := by cases p <;> rfl
@[simp] theorem setPin_port (p : Pin) (v : PinState) : (setPin p v s).port = s.port := by cases p <;> rfl
@[simp] theorem setPin_rspPort (p : Pin) (v : PinState) : (setPin p v s).rspPort = s.rspPort := by cases p <;> rfl
@[simp] theorem setPin_font (p : Pin) (v : PinState) : (setPin p v s).font = s.font := by cases p <;> rfl
@[simp] theorem setPin_dioLevels (p : Pin) (v : PinState) : (setPin p v s).dioLevels = s.dioLevels := by cases p <;> rfl
@[simp] theorem setPin_sampleCount (p : Pin) (v : PinState) : (setPin p v s).sampleCount = s.sampleCount := by cases p <;> rfl
@[simp] theorem setPin_resetIn (p : Pin) (v : PinState) : (setPin p v s).resetIn = s.resetIn := by cases p <;> rfl
@[simp] theorem setPin_wire (p : Pin) (v : PinState) : (setPin p v s).wire = s.wire := by cases p <;> rfl

/-! ### pin -/

@[simp] theorem pin_stb : s.pin .stb = s.stb := (rfl)
@[simp] theorem pin_clk : s.pin .clk = s.clk := (rfl)
@[simp] theorem pin_dio : s.pin .dio = s.dio := (rfl)

/-! ### takeLevel -/

@[simp] theorem takeLevel_stb : (takeLevel s).stb = s.stb := (rfl)
@[simp] theorem takeLevel_clk : (takeLevel s).clk = s.clk := (rfl)
@[simp] theorem takeLevel_dio : (takeLevel s).dio = s.dio := (rfl)
@[simp] theorem takeLevel_intensity : (takeLevel s).intensity = s.intensity := (rfl)
@[simp] theorem takeLevel_powerOn : (takeLevel s).powerOn = s.powerOn := (rfl)
@[simp] theorem takeLevel_initialized : (takeLevel s).initialized = s.initialized := (rfl)
@[simp] theorem takeLevel_seq : (takeLevel s).seq = s.seq := (rfl)
@[simp] theorem takeLevel_req : (takeLevel s).req = s.req := (rfl)
@[simp] theorem takeLevel_rspStatus : (takeLevel s).rspStatus = s.rspStatus := (rfl)
@[simp] theorem takeLevel_rspResult : (takeLevel s).rspResult = s.rspResult := (rfl)
@[simp] theorem takeLevel_rspDiag : (takeLevel s).rspDiag = s.rspDiag := (rfl)
@[simp] theorem takeLevel_faultLog : (takeLevel s).faultLog = s.faultLog := (rfl)
@[simp] theorem takeLevel_events : (takeLevel s).events = s.events := (rfl)
@[simp] theorem takeLevel_trace : (takeLevel s).trace = s.trace := (rfl)
@[simp] theorem takeLevel_shift : (takeLevel s).shift = s.shift := (rfl)
@[simp] theorem takeLevel_bitCount : (takeLevel s).bitCount = s.bitCount := (rfl)
@[simp] theorem takeLevel_port : (takeLevel s).port = s.port := (rfl)
@[simp] theorem takeLevel_rspPort : (takeLevel s).rspPort = s.rspPort := (rfl)
@[simp] theorem takeLevel_font : (takeLevel s).font = s.font := (rfl)
@[simp] theorem takeLevel_dioLevels : (takeLevel s).dioLevels = s.dioLevels.drop 1 := (rfl)
@[simp] theorem takeLevel_sampleCount : (takeLevel s).sampleCount = s.sampleCount + 1 := (rfl)
@[simp] theorem takeLevel_resetIn : (takeLevel s).resetIn = s.resetIn := (rfl)
@[simp] theorem takeLevel_wire : (takeLevel s).wire = s.wire := (rfl)

/-! ### endRequest -/

@[simp] theorem endRequest_stb (st : BitVec 4) (r : Reply) : (endRequest st r s).stb = s.stb := (rfl)
@[simp] theorem endRequest_clk (st : BitVec 4) (r : Reply) : (endRequest st r s).clk = s.clk := (rfl)
@[simp] theorem endRequest_dio (st : BitVec 4) (r : Reply) : (endRequest st r s).dio = s.dio := (rfl)
@[simp] theorem endRequest_intensity (st : BitVec 4) (r : Reply) : (endRequest st r s).intensity = s.intensity := (rfl)
@[simp] theorem endRequest_powerOn (st : BitVec 4) (r : Reply) : (endRequest st r s).powerOn = s.powerOn := (rfl)
@[simp] theorem endRequest_initialized (st : BitVec 4) (r : Reply) : (endRequest st r s).initialized = s.initialized := (rfl)
@[simp] theorem endRequest_seq (st : BitVec 4) (r : Reply) : (endRequest st r s).seq = .idle := (rfl)
@[simp] theorem endRequest_req (st : BitVec 4) (r : Reply) : (endRequest st r s).req = s.req := (rfl)
@[simp] theorem endRequest_rspStatus (st : BitVec 4) (r : Reply) : (endRequest st r s).rspStatus = st := (rfl)
@[simp] theorem endRequest_rspResult (st : BitVec 4) (r : Reply) : (endRequest st r s).rspResult = r.result := (rfl)
@[simp] theorem endRequest_rspDiag (st : BitVec 4) (r : Reply) : (endRequest st r s).rspDiag = r.diag := (rfl)
@[simp] theorem endRequest_faultLog (st : BitVec 4) (r : Reply) : (endRequest st r s).faultLog = s.faultLog := (rfl)
@[simp] theorem endRequest_events (st : BitVec 4) (r : Reply) : (endRequest st r s).events = s.events := (rfl)
@[simp] theorem endRequest_trace (st : BitVec 4) (r : Reply) : (endRequest st r s).trace = s.trace := (rfl)
@[simp] theorem endRequest_shift (st : BitVec 4) (r : Reply) : (endRequest st r s).shift = s.shift := (rfl)
@[simp] theorem endRequest_bitCount (st : BitVec 4) (r : Reply) : (endRequest st r s).bitCount = s.bitCount := (rfl)
@[simp] theorem endRequest_port (st : BitVec 4) (r : Reply) : (endRequest st r s).port = s.port := (rfl)
@[simp] theorem endRequest_rspPort (st : BitVec 4) (r : Reply) : (endRequest st r s).rspPort = s.rspPort ++ responseWords st r.result r.diag := (rfl)
@[simp] theorem endRequest_font (st : BitVec 4) (r : Reply) : (endRequest st r s).font = s.font := (rfl)
@[simp] theorem endRequest_dioLevels (st : BitVec 4) (r : Reply) : (endRequest st r s).dioLevels = s.dioLevels := (rfl)
@[simp] theorem endRequest_sampleCount (st : BitVec 4) (r : Reply) : (endRequest st r s).sampleCount = s.sampleCount := (rfl)
@[simp] theorem endRequest_resetIn (st : BitVec 4) (r : Reply) : (endRequest st r s).resetIn = s.resetIn := (rfl)
@[simp] theorem endRequest_wire (st : BitVec 4) (r : Reply) : (endRequest st r s).wire = s.wire := (rfl)

/-! ### fail -/

@[simp] theorem fail_stb (c : Status) (info : Word) : (fail c info s).stb = s.stb := (rfl)
@[simp] theorem fail_clk (c : Status) (info : Word) : (fail c info s).clk = s.clk := (rfl)
@[simp] theorem fail_dio (c : Status) (info : Word) : (fail c info s).dio = s.dio := (rfl)
@[simp] theorem fail_intensity (c : Status) (info : Word) : (fail c info s).intensity = s.intensity := (rfl)
@[simp] theorem fail_powerOn (c : Status) (info : Word) : (fail c info s).powerOn = s.powerOn := (rfl)
@[simp] theorem fail_initialized (c : Status) (info : Word) : (fail c info s).initialized = s.initialized := (rfl)
@[simp] theorem fail_seq (c : Status) (info : Word) : (fail c info s).seq = .idle := (rfl)
@[simp] theorem fail_req (c : Status) (info : Word) : (fail c info s).req = s.req := (rfl)
@[simp] theorem fail_rspStatus (c : Status) (info : Word) : (fail c info s).rspStatus = statusCode c := (rfl)
@[simp] theorem fail_rspResult (c : Status) (info : Word) : (fail c info s).rspResult = 0 := (rfl)
@[simp] theorem fail_rspDiag (c : Status) (info : Word) : (fail c info s).rspDiag = false := (rfl)
@[simp] theorem fail_faultLog (c : Status) (info : Word) : (fail c info s).faultLog = s.faultLog ++ [⟨s.req, statusCode c, info⟩] := (rfl)
@[simp] theorem fail_events (c : Status) (info : Word) : (fail c info s).events = s.events := (rfl)
@[simp] theorem fail_trace (c : Status) (info : Word) : (fail c info s).trace = s.trace := (rfl)
@[simp] theorem fail_shift (c : Status) (info : Word) : (fail c info s).shift = s.shift := (rfl)
@[simp] theorem fail_bitCount (c : Status) (info : Word) : (fail c info s).bitCount = s.bitCount := (rfl)
@[simp] theorem fail_port (c : Status) (info : Word) : (fail c info s).port = s.port := (rfl)
@[simp] theorem fail_rspPort (c : Status) (info : Word) : (fail c info s).rspPort = s.rspPort ++ responseWords (statusCode c) 0 false := (rfl)
@[simp] theorem fail_font (c : Status) (info : Word) : (fail c info s).font = s.font := (rfl)
@[simp] theorem fail_dioLevels (c : Status) (info : Word) : (fail c info s).dioLevels = s.dioLevels := (rfl)
@[simp] theorem fail_sampleCount (c : Status) (info : Word) : (fail c info s).sampleCount = s.sampleCount := (rfl)
@[simp] theorem fail_resetIn (c : Status) (info : Word) : (fail c info s).resetIn = s.resetIn := (rfl)
@[simp] theorem fail_wire (c : Status) (info : Word) : (fail c info s).wire = s.wire := (rfl)

/-! ### resetBlock -/

@[simp] theorem resetBlock_stb : (resetBlock s).stb = State.reset.stb := (rfl)
@[simp] theorem resetBlock_clk : (resetBlock s).clk = State.reset.clk := (rfl)
@[simp] theorem resetBlock_dio : (resetBlock s).dio = State.reset.dio := (rfl)
@[simp] theorem resetBlock_intensity : (resetBlock s).intensity = State.reset.intensity := (rfl)
@[simp] theorem resetBlock_powerOn : (resetBlock s).powerOn = State.reset.powerOn := (rfl)
@[simp] theorem resetBlock_initialized : (resetBlock s).initialized = State.reset.initialized := (rfl)
@[simp] theorem resetBlock_seq : (resetBlock s).seq = State.reset.seq := (rfl)
@[simp] theorem resetBlock_req : (resetBlock s).req = State.reset.req := (rfl)
@[simp] theorem resetBlock_rspStatus : (resetBlock s).rspStatus = State.reset.rspStatus := (rfl)
@[simp] theorem resetBlock_rspResult : (resetBlock s).rspResult = State.reset.rspResult := (rfl)
@[simp] theorem resetBlock_rspDiag : (resetBlock s).rspDiag = State.reset.rspDiag := (rfl)
@[simp] theorem resetBlock_faultLog : (resetBlock s).faultLog = State.reset.faultLog := (rfl)
@[simp] theorem resetBlock_events : (resetBlock s).events = [] := (rfl)
@[simp] theorem resetBlock_trace : (resetBlock s).trace = [] := (rfl)
@[simp] theorem resetBlock_shift : (resetBlock s).shift = State.reset.shift := (rfl)
@[simp] theorem resetBlock_bitCount : (resetBlock s).bitCount = State.reset.bitCount := (rfl)
@[simp] theorem resetBlock_port : (resetBlock s).port = s.port := (rfl)
@[simp] theorem resetBlock_rspPort : (resetBlock s).rspPort = s.rspPort := (rfl)
@[simp] theorem resetBlock_font : (resetBlock s).font = s.font := (rfl)
@[simp] theorem resetBlock_dioLevels : (resetBlock s).dioLevels = s.dioLevels := (rfl)
@[simp] theorem resetBlock_sampleCount : (resetBlock s).sampleCount = s.sampleCount := (rfl)
@[simp] theorem resetBlock_resetIn : (resetBlock s).resetIn = State.reset.resetIn := (rfl)
@[simp] theorem resetBlock_wire : (resetBlock s).wire = State.reset.wire := (rfl)

end Sys2Proof.Machine
end

