-- ==== Sys2Proof/Laws/Transport.lean ====
section
/-! SUPPORT. What the shared operations do, each said once: on driven pins they succeed with a closed form. -/

namespace Sys2Proof.Machine

variable {s : State}

/-- The state after bus activity that ends on a sent byte: STB at a level, CLK high, DIO at a level, the byte in the shift
value, the events appended. -/
def onBus (stb : Level) (events : List Event) (dio : Level) (v : Byte) (s : State) : State :=
  { s with
    stb := ⟨.out, stb⟩
    clk := ⟨.out, .hi⟩
    dio := ⟨.out, dio⟩
    shift := v
    bitCount := 7
    events := events.reverse ++ s.events }

/-- The state after one sent bit-cell. -/
def afterCells (events : List Event) (dio : PinState) (shift : Byte) (bits : BitVec 3) (s : State) : State :=
  { s with
    clk := ⟨.out, .hi⟩
    dio := dio
    shift := shift
    bitCount := bits
    events := events.reverse ++ s.events }

@[simp] theorem onBus_onBus (b c : Level) (e f : List Event) (d g : Level) (v w : Byte) :
    onBus c f g w (onBus b e d v s) = onBus c (e ++ f) g w s := by simp [onBus]

@[simp] theorem onBus_driven (b : Level) (e : List Event) (d : Level) (v : Byte) : PinsDriven (onBus b e d v s) :=
  ⟨rfl, rfl, rfl⟩

@[simp] theorem onBus_font (b : Level) (e : List Event) (d : Level) (v : Byte) : (onBus b e d v s).font = s.font := (rfl)

@[simp] theorem onBus_trace (b : Level) (e : List Event) (d : Level) (v : Byte) :
    (onBus b e d v s).trace = s.trace ++ e := by simp [onBus, State.trace]

@[simp] theorem onBus_emit (b : Level) (e : List Event) (d : Level) (v : Byte) (x : Event) :
    onBus b e d v (emit x s) = onBus b (x :: e) d v s := by simp [onBus, emit]

theorem pinWrite_driven (p : Pin) (v : Bool) (h : (s.pin p).dir = .out) :
    pinWrite p v s = .ok (emit (.wr p v) (setPin p ⟨.out, levelOf v⟩ s)) := if_pos h

theorem pinWrite_undriven (p : Pin) (v : Bool) (h : (s.pin p).dir ≠ .out) :
    pinWrite p v s = .error (.model (.pinNotOutput p)) := if_neg h

theorem sendBit_driven (v : Byte) (i : Nat) (hc : s.clk.dir = .out) (hd : s.dio.dir = .out) :
    sendBit v s i = .ok (afterCells (sentCell (v.getLsbD i)) ⟨.out, levelOf (v.getLsbD i)⟩ s.shift (BitVec.ofNat 3 i) s) := by
  simp [sendBit, pinWrite, hc, hd, bind, Except.bind, afterCells, sentCell, setPin, emit, State.pin, levelOf]

/-- SEND_BYTE on driven pins: 24 events, CLK high, DIO at bit 7 (40_transport.md R101). -/
theorem sendByte_driven (v : Byte) (hc : s.clk.dir = .out) (hd : s.dio.dir = .out) :
    sendByte v s = .ok { onBus .hi (sentByte v) (levelOf (v.getLsbD 7)) v s with stb := s.stb } := by
  have cell (i : Nat) (t : State) (hc : t.clk.dir = .out) (hd : t.dio.dir = .out) := sendBit_driven (s := t) v i hc hd
  simp [sendByte, List.range_succ, List.foldlM, bind, Except.bind, cell, hc, hd, afterCells, onBus, sentByte, pure,
    Except.pure]

theorem endFrame_driven (h : s.stb.dir = .out) :
    endFrame s = .ok (emit (.wr .stb true) (setPin .stb ⟨.out, .hi⟩ s)) := pinWrite_driven .stb true h

/-- Opening a frame leaves STB low after the command byte (30_encoding.md R71). -/
theorem openFrame_driven (c : Byte) (h : PinsDriven s) : openFrame c s =
    .ok (onBus .lo (.wr .stb false :: sentByte c) (levelOf (c.getLsbD 7)) c s) := by
  have send := sendByte_driven (s := emit (.wr .stb false) (setPin .stb ⟨.out, .lo⟩ s)) c h.2.1 h.2.2
  simp only [openFrame, beginFrame, pinWrite_driven (s := s) .stb false h.1, bind, Except.bind]
  refine send.trans ?_
  simp [onBus, setPin, emit]

/-- A further byte in an open frame. -/
theorem sendByte_onBus (b : Level) (e : List Event) (d : Level) (v w : Byte) :
    sendByte w (onBus b e d v s) = .ok (onBus b (e ++ sentByte w) (levelOf (w.getLsbD 7)) w s) := by
  rw [sendByte_driven w rfl rfl]; simp [onBus]

theorem endFrame_onBus (b : Level) (e : List Event) (d : Level) (v : Byte) :
    endFrame (onBus b e d v s) = .ok (onBus .hi (e ++ [.wr .stb true]) d v s) := by
  rw [endFrame_driven rfl]; simp [onBus, emit, setPin]

/-- `Cmd(c)` (41_command_protocol.md R114). -/
theorem cmd_driven (c : Byte) (h : PinsDriven s) :
    cmd c s = .ok (onBus .hi (sentFrame [c]) (levelOf (c.getLsbD 7)) c s) := by
  simp [cmd, openFrame_driven c h, bind, Except.bind, endFrame_onBus, sentFrame]

/-- `WriteData(a, d)` (R116). -/
theorem writeData_driven (a : RamAddr) (d : Byte) (h : PinsDriven s) :
    writeData a d s = .ok (onBus .hi (writeFrames a d) (levelOf (d.getLsbD 7)) d s) := by
  simp only [writeData, cmd_driven modeFixedByte h, openFrame_driven _ (onBus_driven _ _ _ _), bind, Except.bind,
    onBus_onBus, sendByte_onBus, endFrame_onBus]
  simp [writeFrames, sentFrame, modeFixedByte, addrByte]

/-- A run of writes is one write after the other. -/
theorem writes_cons (a : Nat → RamAddr) (d : Nat → Byte) (r : Nat) (l : List Nat) (h : PinsDriven s) :
    (r :: l).foldlM (fun s r => writeData (a r) (d r) s) s =
      l.foldlM (fun s r => writeData (a r) (d r) s)
        (onBus .hi (writeFrames (a r) (d r)) (levelOf ((d r).getLsbD 7)) (d r) s) := by
  rw [List.foldlM_cons, writeData_driven _ _ h]; rfl

/-! ### Receiving -/

/-- The state after receiving `n` bits inside a frame with DIO an input: the events appended, the shift value and counter
moved, `n` samples taken. -/
def afterReceive (events : List Event) (shift : Byte) (bits : BitVec 3) (n : Nat) (s : State) : State :=
  { s with
    clk := ⟨.out, .hi⟩
    shift := shift
    bitCount := bits
    dioLevels := s.dioLevels.drop n
    sampleCount := s.sampleCount + n
    events := events.reverse ++ s.events }

@[simp] theorem afterReceive_then (e f : List Event) (x y : Byte) (b c : BitVec 3) (n m : Nat) :
    afterReceive f y c m (afterReceive e x b n s) = afterReceive (e ++ f) y c (n + m) s := by
  simp [afterReceive, Nat.add_assoc, Nat.add_comm n m]

/-- A state whose environment has moved on by `n` samples presents the samples from `n` on. -/
theorem sampleAt_moved {t : State} {n : Nat} (h : SamplesTaken n s t) (k : Nat) : sampleAt t k = sampleAt s (n + k) := by
  simp [sampleAt, h.1, h.2, List.getElem?_drop, Nat.add_assoc]

@[simp] theorem sampleAt_afterReceive (e : List Event) (x : Byte) (b : BitVec 3) (n k : Nat) :
    sampleAt (afterReceive e x b n s) k = sampleAt s (n + k) := sampleAt_moved ⟨rfl, rfl⟩ k

theorem nextLevel_eq_sampleAt (s : State) : nextLevel s = sampleAt s 0 := by
  cases h : s.dioLevels <;> simp [nextLevel, sampleAt, h]

theorem receiveBit_driven (i : Nat) (hc : s.clk.dir = .out) (hd : s.dio.dir = .inPu) :
    receiveBit s i = .ok (afterReceive (receivedCell (sampleAt s 0)) (shiftIn s.shift (sampleAt s 0))
      (BitVec.ofNat 3 i) 1 s) := by
  rw [← nextLevel_eq_sampleAt]
  simp [receiveBit, pinWrite, pinRead, hc, hd, bind, Except.bind, afterReceive, receivedCell, setPin, emit, State.pin,
    levelOf, takeLevel, nextLevel]

/-- Eight shifts put the first sample in bit 0 and the eighth in bit 7 (40_transport.md R103, R104). -/
theorem shiftIn_eight (b0 b1 b2 b3 b4 b5 b6 b7 : Bool) :
    shiftIn (shiftIn (shiftIn (shiftIn (shiftIn (shiftIn (shiftIn (shiftIn 0 b0) b1) b2) b3) b4) b5) b6) b7
      = byteOfSamples [b0, b1, b2, b3, b4, b5, b6, b7] := by
  revert b0 b1 b2 b3 b4 b5 b6 b7; decide

theorem samplesOfByte_eq (s : State) (j : Nat) : samplesOfByte s j =
    [sampleAt s (8 * j), sampleAt s (8 * j + 1), sampleAt s (8 * j + 2), sampleAt s (8 * j + 3),
     sampleAt s (8 * j + 4), sampleAt s (8 * j + 5), sampleAt s (8 * j + 6), sampleAt s (8 * j + 7)] := (rfl)

@[simp] theorem afterReceive_dio (e : List Event) (x : Byte) (b : BitVec 3) (n : Nat) :
    (afterReceive e x b n s).dio = s.dio := (rfl)

@[simp] theorem afterReceive_clk (e : List Event) (x : Byte) (b : BitVec 3) (n : Nat) :
    (afterReceive e x b n s).clk = ⟨.out, .hi⟩ := (rfl)

@[simp] theorem afterReceive_shift (e : List Event) (x : Byte) (b : BitVec 3) (n : Nat) :
    (afterReceive e x b n s).shift = x := (rfl)

theorem receiveBits_cons (i : Nat) (l : List Nat) (hc : s.clk.dir = .out) (hd : s.dio.dir = .inPu) :
    (i :: l).foldlM receiveBit s = l.foldlM receiveBit (afterReceive (receivedCell (sampleAt s 0))
      (shiftIn s.shift (sampleAt s 0)) (BitVec.ofNat 3 i) 1 s) := by
  rw [List.foldlM_cons, receiveBit_driven i hc hd]; rfl

/-- The eight received bit-cells. -/
theorem receiveBits_driven (hc : s.clk.dir = .out) (hd : s.dio.dir = .inPu) (h0 : s.shift = 0) :
    (List.range 8).foldlM receiveBit s =
      .ok (afterReceive ((samplesOfByte s 0).flatMap receivedCell) (receivedFrom s 0) 7 8 s) := by
  rw [receivedFrom, samplesOfByte_eq, ← shiftIn_eight, show List.range 8 = [0, 1, 2, 3, 4, 5, 6, 7] from rfl]
  simp only [receiveBits_cons, hc, hd, h0, afterReceive_clk, afterReceive_dio, afterReceive_shift, afterReceive_then,
    sampleAt_afterReceive]
  simp [pure, Except.pure]

/-- RECEIVE_BYTE with CLK driven: 26 events, the byte in the shift value, DIO an output at X again (R104). -/
theorem receiveByte_driven (hc : s.clk.dir = .out) :
    receiveByte s = .ok { afterReceive (receivedByte (samplesOfByte s 0)) (receivedFrom s 0) 7 8 s with
      dio := ⟨.out, .x⟩ } := by
  have bits := receiveBits_driven (s := { pinCfg .dio .inPu s with shift := 0 }) hc rfl rfl
  simp only [receiveByte, bind, Except.bind, bits, pure, Except.pure]
  simp [afterReceive, pinCfg, emit, setPin, receivedByte, samplesOfByte, receivedFrom, sampleAt]

/-- The state whose environment has moved on by `n` samples. -/
def moved (n : Nat) (s : State) : State :=
  { s with dioLevels := s.dioLevels.drop n, sampleCount := s.sampleCount + n }

@[simp] theorem moved_moved (n m : Nat) : moved m (moved n s) = moved (n + m) s := by
  simp [moved, Nat.add_assoc]

@[simp] theorem samplesOfByte_moved (m j : Nat) : samplesOfByte (moved (8 * m) s) j = samplesOfByte s (m + j) := by
  simp [samplesOfByte, sampleAt_moved (s := s) (t := moved (8 * m) s) ⟨rfl, rfl⟩, Nat.mul_add, Nat.add_assoc]

/-- Receiving a byte in an open frame. -/
theorem receiveByte_onBus (b : Level) (e : List Event) (d : Level) (v : Byte) :
    receiveByte (onBus b e d v s) =
      .ok (onBus b (e ++ receivedByte (samplesOfByte s 0)) .x (receivedFrom s 0) (moved 8 s)) := by
  rw [receiveByte_driven rfl]
  simp [onBus, afterReceive, moved, receivedFrom, samplesOfByte, sampleAt]

/-- `KeyFrame()` (43_key_scanner.md R160): the four received bytes, 130 events, DIO an output at X, 32 samples taken. -/
theorem keyFrame_driven (h : PinsDriven s) : keyFrame s =
    .ok (receivedFrom s 0, receivedFrom s 1, receivedFrom s 2, receivedFrom s 3,
      onBus .hi (keyFrameEvents ((List.range 4).map (samplesOfByte s))) .x (receivedFrom s 3) (moved 32 s)) := by
  simp only [keyFrame, openFrame_driven keyScanByte h, bind, Except.bind, receiveByte_onBus, endFrame_onBus, pure,
    Except.pure, moved_moved]
  have at1 := samplesOfByte_moved (s := s) 1 0
  have at2 := samplesOfByte_moved (s := s) 2 0
  have at3 := samplesOfByte_moved (s := s) 3 0
  simp only [Nat.mul_one, Nat.reduceMul, Nat.reduceAdd] at at1 at2 at3
  simp [receivedFrom, at1, at2, at3, keyFrameEvents, keyScanByte, List.range_succ, onBus]

/-! ### INIT -/

theorem configurePins_eq (s : State) : configurePins s = .ok { s with
    stb := ⟨.out, .hi⟩
    clk := ⟨.out, .hi⟩
    dio := ⟨.out, .x⟩
    events := configEvents.reverse ++ s.events } := by
  simp [configurePins, pinCfg, pinWrite, State.pin, setPin, emit, bind, Except.bind, configEvents, levelOf]

/-- A run of zero bytes in an open frame. -/
theorem zeros_onBus (b : Level) (i : Nat) (l : List Nat) (e : List Event) (d : Level) (v : Byte) :
    (i :: l).foldlM (fun s _ => sendByte 0 s) (onBus b e d v s) =
      .ok (onBus b (e ++ (List.replicate (l.length + 1) (0 : Byte)).flatMap sentByte) .lo 0 s) := by
  induction l generalizing i e d v with
  | nil =>
    rw [List.foldlM_cons, sendByte_onBus]
    simp only [List.foldlM_nil, List.length_nil, List.replicate, List.flatMap_cons, List.flatMap_nil, List.append_nil]
    rfl
  | cons j l ih =>
    rw [List.foldlM_cons, sendByte_onBus]
    simp only [bind, Except.bind, ih, List.length_cons]
    rw [List.replicate_succ (n := l.length + 1), List.flatMap_cons, List.append_assoc]

theorem clearFrame_driven (h : PinsDriven s) :
    clearFrame s = .ok (onBus .hi (sentFrame (0xC0 :: List.replicate 16 0)) .lo 0 s) := by
  have zeros := zeros_onBus (s := s) .lo 0 (List.range' 1 15) (.wr .stb false :: sentByte (addrByte 0))
    (levelOf ((addrByte 0).getLsbD 7)) (addrByte 0)
  simp only [clearFrame, openFrame_driven _ h, bind, Except.bind]
  rw [show List.range Config.ramSize = 0 :: List.range' 1 15 from rfl, zeros]
  simp only [endFrame_onBus, sentFrame, List.flatMap_cons, List.length_range', List.cons_append, List.append_assoc]
  rfl

/-- INIT's body succeeds from every state (41_command_protocol.md R121). -/
theorem initBody_eq (b : Byte) (s : State) : initBody b s = .ok
    { onBus .hi (initEvents (clampLevel b)) .lo 0 s with
      intensity := clampLevel b
      powerOn := true
      initialized := true } := by
  simp only [initBody, configurePins_eq, bind, Except.bind]
  rw [cmd_driven _ ⟨rfl, rfl, rfl⟩]
  simp only [cmd_driven _ (onBus_driven _ _ _ _), clearFrame_driven (onBus_driven _ _ _ _), onBus_onBus, pure, Except.pure]
  simp [onBus, initEvents, modeAutoByte, displayOnByte]

end Sys2Proof.Machine
end

