-- ==== Sys2Proof/Laws/Requests.lean ====
section
/-! SUPPORT. What each request does, in closed form, and what the end of a request and the entry of a fault leave behind. -/

namespace Sys2Proof.Machine

variable {s : State}

/-! ### Ends of requests -/

theorem responseWords_eq (status : BitVec 4) (result : Word) (diag : Bool) :
    responseWords status result diag = [(if diag then 16 else 0) + status.setWidth 32, result] := by
  have word0 : ∀ st : BitVec 4, ∀ d : Bool, responseWord0 st d = (if d then 16 else 0) + st.setWidth 32 := by decide
  simp [responseWords, word0]

/-- The end of a request writes the response and nothing else. -/
theorem responds_endRequest (status : BitVec 4) (r : Reply) (t : State) (h : t.rspPort = s.rspPort) :
    Responds status r.result r.diag s (endRequest status r t) :=
  ⟨rfl, rfl, rfl, rfl, by simp [h, responseWords_eq]⟩

/-- A request that ends OK on the bus. -/
theorem completed_onBus (e : List Event) (d : Level) (v : Byte) (r : Reply) :
    Completed e d r.result r.diag s (endRequest 0 r (onBus .hi e d v s)) :=
  ⟨onBus_trace (s := s) .hi e d v, ⟨rfl, rfl, rfl⟩, responds_endRequest 0 r _ rfl, ⟨rfl, rfl, rfl⟩, rfl, ⟨rfl, rfl, rfl, rfl, rfl⟩⟩

/-- A fault taken before any event. -/
theorem faultedAtOnce_fail (c : Status) (info : Word) (s : State) : FaultedAtOnce (statusCode c) info s (fail c info s) :=
  ⟨rfl, ⟨rfl, rfl, rfl⟩, responds_endRequest _ {} _ rfl, ⟨rfl, rfl, rfl⟩, rfl, ⟨rfl, rfl, rfl, rfl, rfl⟩, ⟨rfl, rfl⟩,
    ⟨rfl, rfl⟩⟩

theorem guardedRequest_ready (op : BitVec 4) (body : State → Res (Reply × State)) (h : s.initialized = true) :
    guardedRequest op body s = concludeRequest (body s) := by simp [guardedRequest, h]

theorem guardedRequest_notReady (op : BitVec 4) (body : State → Res (Reply × State)) (h : s.initialized = false) :
    guardedRequest op body s = .next (fail .notInitialized (op.setWidth 32) s) := by simp [guardedRequest, h]

/-! ### Command protocol -/

theorem execSendCommand_ready (c : Byte) (h : s.initialized = true) (hp : PinsDriven s) :
    execSendCommand c s = .next (endRequest 0 {} (onBus .hi (sentFrame [c]) (levelOf (c.getLsbD 7)) c s)) := by
  rw [execSendCommand, guardedRequest_ready _ _ h, cmd_driven c hp]; rfl

theorem execSendData_ready (a : RamAddr) (d : Byte) (h : s.initialized = true) (hp : PinsDriven s) :
    execSendData a d s = .next (endRequest 0 {} (onBus .hi (writeFrames a d) (levelOf (d.getLsbD 7)) d s)) := by
  rw [execSendData, guardedRequest_ready _ _ h, writeData_driven a d hp]; rfl

theorem execInit_eq (b : Byte) (s : State) : execInit b s = .next (endRequest 0 {}
    { onBus .hi (initEvents (clampLevel b)) .lo 0 s with
      intensity := clampLevel b
      powerOn := true
      initialized := true }) := by
  rw [execInit, openRequest, initBody_eq]; rfl

/-! ### Display encoder -/

theorem execSetLed_ready (p : Pos) (c : Byte) (h : s.initialized = true) (hp : PinsDriven s) :
    execSetLed p c s =
      .next (endRequest 0 {} (onBus .hi (writeFrames (ledAddress p) c) (levelOf (c.getLsbD 7)) c s)) := by
  rw [execSetLed, guardedRequest_ready _ _ h, writeData_driven _ c hp]; rfl

theorem execRenderChar_ready (p : Pos) (x : Byte) (dot : Bool) (h : s.initialized = true) (hp : PinsDriven s) :
    execRenderChar p x dot s = .next (endRequest 0 {} (onBus .hi (writeFrames (rowAddress p) (withDot x dot))
      (levelOf ((withDot x dot).getLsbD 7)) (withDot x dot) s)) := by
  rw [execRenderChar, guardedRequest_ready _ _ h, renderChar, writeData_driven _ _ hp]; rfl

/-- A non-empty run of row writes, in closed form. -/
theorem rows_driven (a : Nat → RamAddr) (d : Nat → Byte) (r : Nat) (l : List Nat) (h : PinsDriven s) :
    (r :: l).foldlM (fun s r => writeData (a r) (d r) s) s =
      .ok (onBus .hi ((r :: l).flatMap (fun r => writeFrames (a r) (d r)))
        (levelOf ((d ((r :: l).getLast (by simp))).getLsbD 7)) (d ((r :: l).getLast (by simp))) s) := by
  induction l generalizing r s with
  | nil => rw [writes_cons a d r [] h]; simp [pure, Except.pure]
  | cons q l ih =>
    rw [writes_cons a d r (q :: l) h, ih q (onBus_driven _ _ _ _)]
    simp

theorem setDigitBody_known (p : Pos) (c pattern : Byte) (dot : Bool) (hp : PinsDriven s)
    (hc : lookup s.font c = some pattern) :
    setDigitBody p c dot s = .ok (onBus .hi ((List.range 6).flatMap (fun r =>
        writeFrames (rowAddress (BitVec.ofNat 3 r)) (withDot (digitRow pattern r p) dot)))
      (levelOf ((withDot (digitRow pattern 5 p) dot).getLsbD 7)) (withDot (digitRow pattern 5 p) dot) s) := by
  simp only [setDigitBody, lookupOrRaise, hc, bind, Except.bind, renderChar]
  exact rows_driven (fun r => rowAddress (BitVec.ofNat 3 r)) (fun r => withDot (digitRow pattern r p) dot) 0 [1, 2, 3, 4, 5] hp

theorem execSetDigit_known (p : Pos) (c pattern : Byte) (dot : Bool) (h : s.initialized = true) (hp : PinsDriven s)
    (hc : lookup s.font c = some pattern) :
    execSetDigit p c dot s = .next (endRequest 0 {} (onBus .hi ((List.range 6).flatMap (fun r =>
        writeFrames (rowAddress (BitVec.ofNat 3 r)) (withDot (digitRow pattern r p) dot)))
      (levelOf ((withDot (digitRow pattern 5 p) dot).getLsbD 7)) (withDot (digitRow pattern 5 p) dot) s)) := by
  rw [execSetDigit, guardedRequest_ready _ _ h, setDigitBody_known p c pattern dot hp hc]; rfl

theorem execSetDigit_unknown (p : Pos) (c : Byte) (dot : Bool) (h : s.initialized = true)
    (hc : lookup s.font c = none) : execSetDigit p c dot s = .next (fail .unknownChar (c.setWidth 32) s) := by
  rw [execSetDigit, guardedRequest_ready _ _ h]
  simp [setDigitBody, lookupOrRaise, hc, bind, Except.bind, raise, plain, concludeRequest]

theorem dotByteAt_not_beyond (p : Int) (h : p ≤ 7) : dotByteAt p ≠ .beyond := by
  by_cases h0 : p < 0
  · simp [dotByteAt, h0]
  · by_cases h3 : p ≤ 3 <;> simp [dotByteAt, h0, h3, h]

/-- Under the ORIGINAL basis the dot position is at most 7, so no text stops the model (42_display_encoder.md R141). -/
theorem dotByte_not_beyond (t : List Byte) : dotByte t ≠ .beyond := by
  unfold dotByte dotByteOn
  split
  · simp
  · next d hd =>
    have lt : d < t.length := by
      obtain ⟨h, _⟩ := List.findIdx?_eq_some_iff_getElem.1 hd
      exact h
    exact dotByteAt_not_beyond _ (by simp only [Config.dotLenBasis, dotLength]; omega)

/-- The dot byte and diagnostic of a text (R141, R142). -/
def dotBits : DotResult → Byte
  | .placed b => b
  | .noDot => 0
  | .dropped => 0
  | .beyond => 0

/-- The events the scan for a dot appends (R142). -/
def dotEvents : DotResult → List Event
  | .dropped => [.dotDropped]
  | .placed _ => []
  | .noDot => []
  | .beyond => []

theorem scanDot_eq (t : List Byte) (s : State) : scanDot t s =
    .ok (dotBits (dotByte t), decide (dotByte t = .dropped), { s with events := (dotEvents (dotByte t)).reverse ++ s.events }) := by
  have := dotByte_not_beyond t
  unfold scanDot
  split <;> simp_all [dotBits, dotEvents, emit]

theorem rowAddress_seven : rowAddress 7 = 14 := by decide

/-- SET_TEXT's first half: the diagnostic and the row-plane 7 write (R140). -/
theorem setText_start (t : List Byte) (hp : PinsDriven s) :
    renderChar 7 (rot (dotBits (dotByte t))) false { s with events := (dotEvents (dotByte t)).reverse ++ s.events } =
      .ok (onBus .hi (dotEvents (dotByte t) ++ writeFrames 14 (rot (dotBits (dotByte t))))
        (levelOf ((rot (dotBits (dotByte t))).getLsbD 7)) (rot (dotBits (dotByte t))) s) := by
  rw [renderChar, writeData_driven (s := { s with events := (dotEvents (dotByte t)).reverse ++ s.events }) _ _ hp,
    rowAddress_seven]
  simp [onBus, withDot]

/-- SET_TEXT with every row computed (R140, R144). -/
theorem setTextBody_known (t : List Byte) (row : Nat → Byte) (hp : PinsDriven s)
    (hr : ∀ r < 7, rowByte s.font (layout (removeDots t)) r = .ok (row r)) :
    setTextBody t s = .ok (⟨0, decide (dotByte t = .dropped)⟩, onBus .hi
      (dotEvents (dotByte t) ++ writeFrames 14 (rot (dotBits (dotByte t))) ++
        (List.range 7).flatMap (fun r => writeFrames (rowAddress (BitVec.ofNat 3 r)) (rot (row r))))
      (levelOf ((rot (row 6)).getLsbD 7)) (rot (row 6)) s) := by
  have rows : ∀ (l : List Nat), (∀ r ∈ l, r < 7) → ∀ u : State, u.font = s.font → PinsDriven u →
      l.foldlM (writeRow (layout (removeDots t))) u =
        l.foldlM (fun u r => writeData (rowAddress (BitVec.ofNat 3 r)) (rot (row r)) u) u := by
    intro l
    induction l with
    | nil => intros; rfl
    | cons r l ih =>
      intro hl u hu hd
      rw [List.foldlM_cons, List.foldlM_cons, writeRow, hu, hr r (hl r (by simp))]
      simp only [renderChar, withDot, writeData_driven _ _ hd]
      exact ih (fun q hq => hl q (by simp [hq])) _ (by simp [hu]) (onBus_driven _ _ _ _)
  simp only [setTextBody, scanDot_eq, bind, Except.bind, setText_start t hp]
  rw [rows _ (by simp [Config.textRows]) _ (by simp) (onBus_driven _ _ _ _),
    show List.range Config.textRows = [0, 1, 2, 3, 4, 5, 6] from rfl,
    rows_driven (fun r => rowAddress (BitVec.ofNat 3 r)) (fun r => rot (row r)) 0 [1, 2, 3, 4, 5, 6] (onBus_driven _ _ _ _)]
  simp [pure, Except.pure, List.range_succ]

/-- SET_TEXT with an unknown character: row 0 raises it (R145). -/
theorem setTextBody_unknown (t : List Byte) (c : Byte) (hp : PinsDriven s)
    (hr : rowByte s.font (layout (removeDots t)) 0 = .error c) :
    setTextBody t s = raise .unknownChar (c.setWidth 32) (onBus .hi
      (dotEvents (dotByte t) ++ writeFrames 14 (rot (dotBits (dotByte t))))
      (levelOf ((rot (dotBits (dotByte t))).getLsbD 7)) (rot (dotBits (dotByte t))) s) := by
  simp only [setTextBody, scanDot_eq, bind, Except.bind, setText_start t hp]
  rw [show List.range Config.textRows = 0 :: [1, 2, 3, 4, 5, 6] from rfl, List.foldlM_cons, writeRow, onBus_font, hr]
  rfl

/-- Row r computes for every r when the first does: the lookups are the same (R144, R145). -/
theorem rowFrom_isOk (font : List (Byte × Byte)) (buffer : List Byte) (q r r' : Nat) :
    (∃ b, rowFrom font r buffer q = .ok b) → ∃ b, rowFrom font r' buffer q = .ok b := by
  induction buffer generalizing q with
  | nil => exact fun _ => ⟨0, rfl⟩
  | cons c rest ih =>
    rintro ⟨b, h⟩
    simp only [rowFrom] at h ⊢
    split at h
    · next hs => simpa [hs] using ih (q + 1) ⟨b, h⟩
    · next hs =>
      split at h
      · cases h
      · next pattern hp =>
        split at h
        · cases h
        · next row hrow =>
          obtain ⟨b', hb'⟩ := ih (q + 1) ⟨row, hrow⟩
          exact ⟨gatherBit pattern r' q ||| b', by simp [hs, hb']⟩

/-! ### Key scanner -/

theorem readKeys_driven (f : Byte → Byte → Byte → Byte → Word) (hp : PinsDriven s) :
    readKeys f s = .ok (⟨f (receivedFrom s 0) (receivedFrom s 1) (receivedFrom s 2) (receivedFrom s 3), false⟩,
      onBus .hi (keyFrameEvents ((List.range 4).map (samplesOfByte s))) .x (receivedFrom s 3) (moved 32 s)) := by
  simp only [readKeys, keyFrame_driven hp, bind, Except.bind]; rfl

end Sys2Proof.Machine
end

