-- ==== Sys2Proof/Laws/Text.lean ====
section
/-! SUPPORT. SET_DIGIT's and SET_TEXT's bytes as the claims write them: the dot byte rotated, and the row bytes as bits
(42_display_encoder.md R137, R141, R143, R144). -/

namespace Sys2Proof.Machine

theorem withDot_eq (x : Byte) (dot : Bool) : withDot x dot = (x ||| if dot then 0x80 else 0) := by
  cases dot <;> simp [withDot]

theorem withDot_seven (x : Byte) (dot : Bool) : (withDot x dot).getLsbD 7 = (x.getLsbD 7 || dot) := by
  cases dot <;> simp [withDot]

theorem digitByte_eq (pattern : Byte) (r : Nat) (p : Pos) (dot : Bool) :
    withDot (digitRow pattern r p) dot = digitByte pattern r p dot := by
  rw [withDot_eq]; rfl

/-! ### The dot byte -/

/-- The table of R141, rotated. -/
theorem dotByteAt_cases (p : Int) (h : p ≤ 7) :
    rot (dotBits (dotByteAt p)) = (if p < 0 then 0 else 0x80#8 >>> p.toNat) ∧ (dotByteAt p = .dropped ↔ p < 0) := by
  by_cases h0 : p < 0
  · simp [dotByteAt, h0, dotBits]; decide
  · have : p = 0 ∨ p = 1 ∨ p = 2 ∨ p = 3 ∨ p = 4 ∨ p = 5 ∨ p = 6 ∨ p = 7 := by omega
    rcases this with rfl | rfl | rfl | rfl | rfl | rfl | rfl | rfl <;> decide

/-- The dot position of a text never passes 7 under the ORIGINAL basis (R141). -/
theorem realPos_le {t : List Byte} {d : Nat} (hd : t.findIdx? (fun c => c == dotCode) = some d) : realPos t d ≤ 7 := by
  obtain ⟨lt, _⟩ := List.findIdx?_eq_some_iff_getElem.1 hd
  unfold realPos
  omega

theorem dotByte_some {t : List Byte} {d : Nat} (hd : t.findIdx? (fun c => c == dotCode) = some d) :
    dotByte t = dotByteAt (realPos t d) := by
  simp only [dotByte, dotByteOn, hd]
  rfl

/-- SET_TEXT's row-plane 7 byte and its diagnostic, as the claims write them (R142, R146). -/
theorem dotPlane_eq (t : List Byte) :
    rot (dotBits (dotByte t)) = dotPlane t ∧ decide (dotByte t = .dropped) = dotIsDropped t := by
  unfold dotPlane dotIsDropped
  cases hd : t.findIdx? (fun c => c == dotCode) with
  | none => simp only [dotByte, dotByteOn, hd]; decide
  | some d =>
    have table := dotByteAt_cases (realPos t d) (realPos_le hd)
    rw [dotByte_some hd]
    exact ⟨table.1, by simp only [← table.2]⟩

theorem textStart_eq (t : List Byte) :
    dotEvents (dotByte t) ++ writeFrames 14 (rot (dotBits (dotByte t))) = textStartEvents t := by
  rw [textStartEvents, (dotPlane_eq t).1, ← (dotPlane_eq t).2]
  cases dotByte t <;> simp [dotEvents]

/-! ### The row bytes -/

/-- What a character contributes to a row: nothing for a space, else bit r of its pattern (R144). -/
def bitAt (font : List (Byte × Byte)) (r : Nat) (c : Byte) : Bool :=
  c != spaceCode && ((lookup font c).getD 0).getLsbD r

/-- The byte with these bits from position q on. -/
def orBits : List Bool → Nat → Byte
  | [], _ => 0
  | b :: rest, q => (if b then 1#8 <<< q else 0) ||| orBits rest (q + 1)

/-- A row that computes is the byte of its characters' bits. -/
theorem rowFrom_bits (font : List (Byte × Byte)) (r : Nat) (buf : List Byte) (q : Nat) (row : Byte)
    (h : rowFrom font r buf q = .ok row) : row = orBits (buf.map (bitAt font r)) q := by
  induction buf generalizing q row with
  | nil => cases h; rfl
  | cons c rest ih =>
    simp only [rowFrom] at h
    split at h
    · next hs => subst hs; rw [ih _ _ h]; simp [orBits, bitAt]
    · next hs =>
      split at h
      · cases h
      · next pattern hp =>
        split at h
        · cases h
        · next row' hrow =>
          cases h
          rw [ih _ _ hrow]; simp [orBits, bitAt, hp, hs, gatherBit]

/-- The net placement as bits. -/
theorem placedRow_bits (font : List (Byte × Byte)) (l : List Byte) (r : Nat) :
    placedRow font l r = BitVec.ofNat 8 ((List.range l.length).map (fun k =>
      if (l.map (bitAt font r))[k]? = some true then 2 ^ (l.length - 1 - k) else 0)).sum := by
  unfold placedRow
  congr 2
  refine List.map_congr_left (fun k hk => ?_)
  have hk : k < l.length := by simpa using hk
  simp only [hk, getElem?_pos, List.getElem?_map, Option.map_some, Option.some.injEq, bitAt]
  split <;> simp_all

theorem layout_take (u : List Byte) : layout u = layout (u.take 8) := by
  simp [layout, Config.displayWidth, List.take_take]

/-- Reversing, padding, swapping the halves and rotating puts the k-th of n bits at n - 1 - k (R146). -/
theorem bits_layout (bs : List Bool) (h : bs.length ≤ 8) (q : List Bool)
    (hq : q = bs.reverse ++ List.replicate (8 - bs.length) false) :
    rot (orBits (q.drop 4 ++ q.take 4) 0) = BitVec.ofNat 8 ((List.range bs.length).map (fun k =>
      if bs[k]? = some true then 2 ^ (bs.length - 1 - k) else 0)).sum := by
  subst hq
  match bs, h with
  | [], _ => decide
  | [a], _ => revert a; decide
  | [a, b], _ => revert a b; decide
  | [a, b, c], _ => revert a b c; decide
  | [a, b, c, d], _ => revert a b c d; decide
  | [a, b, c, d, e], _ => revert a b c d e; decide
  | [a, b, c, d, e, f], _ => revert a b c d e f; decide
  | [a, b, c, d, e, f, g], _ => revert a b c d e f g; decide
  | [a, b, c, d, e, f, g, i], _ => revert a b c d e f g i; decide
  | _ :: _ :: _ :: _ :: _ :: _ :: _ :: _ :: _ :: _, h => simp at h; omega

/-! ### Which texts compute -/

/-- A row computes when every character is a space or known. -/
theorem rowFrom_ok (font : List (Byte × Byte)) (r : Nat) (buffer : List Byte) (q : Nat)
    (h : ∀ c ∈ buffer, c = spaceCode ∨ (lookup font c).isSome = true) : ∃ row, rowFrom font r buffer q = .ok row := by
  induction buffer generalizing q with
  | nil => exact ⟨0, rfl⟩
  | cons c rest ih =>
    obtain ⟨row, hrow⟩ := ih (q + 1) (fun d hd => h d (by simp [hd]))
    by_cases hs : c = spaceCode
    · exact ⟨row, by simp [rowFrom, hs, hrow]⟩
    · obtain ⟨pattern, hp⟩ := Option.isSome_iff_exists.1 ((h c (by simp)).resolve_left hs)
      exact ⟨gatherBit pattern r q ||| row, by simp [rowFrom, hs, hp, hrow]⟩

/-- A row with an unknown character raises the first one (R145). -/
theorem rowFrom_unknown (font : List (Byte × Byte)) (r : Nat) (buffer : List Byte) (q : Nat) (c : Byte)
    (h : firstUnknown font buffer = some c) : rowFrom font r buffer q = .error c := by
  induction buffer generalizing q with
  | nil => simp [firstUnknown] at h
  | cons d rest ih =>
    simp only [firstUnknown, List.find?_cons] at h
    by_cases hs : d = spaceCode
    · simp only [hs, bne_self_eq_false, Bool.false_and] at h
      simpa [rowFrom, hs] using ih (q + 1) h
    · have hb : (d != spaceCode) = true := bne_iff_ne.2 hs
      cases hp : lookup font d with
      | none => simpa [rowFrom, hs, hp, hb] using h
      | some pattern =>
        simp only [hp, Option.isNone_some, Bool.and_false] at h
        simp [rowFrom, hs, hp, ih (q + 1) h]

/-- The layout buffer holds the shown characters and spaces only (R143). -/
theorem mem_layout {u : List Byte} {c : Byte} (h : c ∈ layout u) : c ∈ u.take 8 ∨ c = spaceCode := by
  simp only [layout, Config.displayWidth, List.mem_append] at h
  have : c ∈ (u.take 8).reverse ++ List.replicate (8 - (u.take 8).reverse.length) spaceCode := by
    rcases h with h | h
    · exact List.mem_of_mem_drop h
    · exact List.mem_of_mem_take h
  rcases List.mem_append.1 this with h | h
  · exact .inl (List.mem_reverse.1 h)
  · exact .inr (List.eq_of_mem_replicate h)

theorem layout_mem {u : List Byte} {c : Byte} (h : c ∈ u.take 8) : c ∈ layout u := by
  have : c ∈ (u.take 8).reverse ++ List.replicate (8 - (u.take 8).reverse.length) spaceCode := by simp [h]
  rw [← List.take_append_drop 4 ((u.take 8).reverse ++ _), List.mem_append] at this
  exact List.mem_append.2 this.symm

/-- A text whose shown characters are known has rows (R144). -/
theorem rows_of_allKnown {font : List (Byte × Byte)} {t : List Byte} (h : allKnown font (shownChars t) = true) (r : Nat) :
    ∃ row, rowByte font (layout (removeDots t)) r = .ok row := by
  refine rowFrom_ok _ _ _ _ (fun c hc => ?_)
  rcases mem_layout hc with hm | hs
  · simpa using List.all_eq_true.1 h c hm
  · exact .inl hs

/-- A text whose shown characters are not all known has a first unknown one (R145). -/
theorem firstUnknown_of_not_allKnown {font : List (Byte × Byte)} {t : List Byte}
    (h : allKnown font (shownChars t) = false) : ∃ c, firstUnknown font (layout (removeDots t)) = some c := by
  obtain ⟨c, hm, hc⟩ := List.all_eq_false.1 h
  refine Option.isSome_iff_exists.1 (List.find?_isSome.2 ⟨c, layout_mem hm, ?_⟩)
  simpa [bne, Option.isNone_iff_eq_none] using hc

end Sys2Proof.Machine
end

