-- ==== Sys2Proof/Laws/Exec.lean ====
section
/-! SUPPORT. Everything an instruction can end in, said once: `exec` answers a next state exactly when one of the rules below
gives it. Later proofs take these cases and unfold no meaning. -/

namespace Sys2Proof.Machine

/-- The state at the end of a request that moved the bus: the events, DIO's level, the last byte sent, the reply. -/
def completed (e : List Event) (d : Level) (v : Byte) (r : Reply) (s : State) : State :=
  endRequest 0 r (onBus .hi e d v s)

/-- The events of SET_DIGIT (42_display_encoder.md R137). -/
def digitEvents (pattern : Byte) (p : Pos) (dot : Bool) : List Event :=
  (List.range 6).flatMap (fun r => writeFrames (BitVec.ofNat 4 (2 * r)) (digitByte pattern r p dot))

/-- The row byte of a text before rotation, every character known (42_display_encoder.md R144). -/
def textRow (font : List (Byte × Byte)) (t : List Byte) (r : Nat) : Byte :=
  orBits ((layout (removeDots t)).map (bitAt font r)) 0

/-- The events of SET_TEXT's seven glyph rows (R140). -/
def glyphEvents (font : List (Byte × Byte)) (t : List Byte) : List Event :=
  (List.range 7).flatMap (fun r => writeFrames (BitVec.ofNat 4 (2 * r)) (rot (textRow font t r)))

/-- The events of a key read (43_key_scanner.md R160). -/
def keyEvents (s : State) : List Event := keyFrameEvents ((List.range 4).map (samplesOfByte s))

/-- The reply of a key read under a combination of its four bytes (R161, R162). -/
def keyReply (combine : Byte → Byte → Byte → Byte → Word) (s : State) : Reply :=
  ⟨combine (receivedFrom s 0) (receivedFrom s 1) (receivedFrom s 2) (receivedFrom s 3), false⟩

/-- How a request can end. -/
inductive Ends (s : State) : Instr → State → Prop
  | init (b : Byte) : Ends s (.init b) (endRequest 0 {}
      { onBus .hi (initEvents (clampLevel b)) .lo 0 s with
        intensity := clampLevel b
        powerOn := true
        initialized := true })
  | rotateBits (x : Byte) : Ends s (.rotateBits x) (endRequest 0 ⟨(rot x).setWidth 32, false⟩ s)
  | reservedAB (w : Word) : Ends s (.reservedAB w) (fail .illegalRequest w s)
  | reservedCF (w : Word) : Ends s (.reservedCF w) (fail .illegalRequest w s)
  | notReady {i : Instr} {op : BitVec 4} (h : guardedOpcode i = some op) (off : s.initialized = false) :
      Ends s i (fail .notInitialized (op.setWidth 32) s)
  | sendCommand (c : Byte) (on : s.initialized = true) (hp : PinsDriven s) :
      Ends s (.sendCommand c) (completed (sentFrame [c]) (levelOf (c.getLsbD 7)) c {} s)
  | sendData (a : RamAddr) (d : Byte) (on : s.initialized = true) (hp : PinsDriven s) :
      Ends s (.sendData a d) (completed (writeFrames a d) (levelOf (d.getLsbD 7)) d {} s)
  | setLed (p : Pos) (c : Byte) (on : s.initialized = true) (hp : PinsDriven s) :
      Ends s (.setLed p c) (completed (writeFrames (ledAddress p) c) (levelOf (c.getLsbD 7)) c {} s)
  | renderChar (p : Pos) (x : Byte) (dot : Bool) (on : s.initialized = true) (hp : PinsDriven s) :
      Ends s (.renderChar p x dot) (completed (writeFrames (rowAddress p) (withDot x dot))
        (levelOf ((withDot x dot).getLsbD 7)) (withDot x dot) {} s)
  | setDigit (p : Pos) (c pattern : Byte) (dot : Bool) (on : s.initialized = true) (hp : PinsDriven s)
      (hc : lookup s.font c = some pattern) :
      Ends s (.setDigit p c dot) (completed (digitEvents pattern p dot)
        (levelOf ((digitByte pattern 5 p dot).getLsbD 7)) (digitByte pattern 5 p dot) {} s)
  | setDigitUnknown (p : Pos) (c : Byte) (dot : Bool) (on : s.initialized = true) (hc : lookup s.font c = none) :
      Ends s (.setDigit p c dot) (fail .unknownChar (c.setWidth 32) s)
  | setText (t : List Byte) (on : s.initialized = true) (hp : PinsDriven s)
      (hk : allKnown s.font (shownChars t) = true) :
      Ends s (.setText t) (completed (textStartEvents t ++ glyphEvents s.font t)
        (levelOf ((rot (textRow s.font t 6)).getLsbD 7)) (rot (textRow s.font t 6)) ⟨0, dotIsDropped t⟩ s)
  | setTextUnknown (t : List Byte) (c : Byte) (on : s.initialized = true) (hp : PinsDriven s)
      (hc : firstUnknown s.font (layout (removeDots t)) = some c) :
      Ends s (.setText t) (fail .unknownChar (c.setWidth 32)
        (onBus .hi (textStartEvents t) (levelOf ((dotPlane t).getLsbD 7)) (dotPlane t) s))
  | getButtons (on : s.initialized = true) (hp : PinsDriven s) :
      Ends s .getButtons
        (completed (keyEvents s) .x (receivedFrom s 3) (keyReply combineOverlap s) (moved 32 s))
  | getButtons64 (on : s.initialized = true) (hp : PinsDriven s) :
      Ends s .getButtons64
        (completed (keyEvents s) .x (receivedFrom s 3) (keyReply combineConcat s) (moved 32 s))

/-- How a row of the transport, or a wire command, can move the bus. -/
inductive Moves (s : State) : Instr → State → Prop
  | sendByte (v : Byte) (hc : s.clk.dir = .out) (hd : s.dio.dir = .out) :
      Moves s (.sendByte v) { onBus .hi (sentByte v) (levelOf (v.getLsbD 7)) v s with stb := s.stb }
  | receiveByte (hc : s.clk.dir = .out) :
      Moves s .receiveByte { afterReceive (receivedByte (samplesOfByte s 0)) (receivedFrom s 0) 7 8 s with
        dio := ⟨.out, .x⟩ }
  | modeAuto (hp : PinsDriven s) : Moves s .modeAuto (onBus .hi (sentFrame [0x40]) .lo 0x40 s)
  | modeFixed (hp : PinsDriven s) : Moves s .modeFixed (onBus .hi (sentFrame [0x44]) .lo 0x44 s)
  | displayOn (l : BitVec 3) (hp : PinsDriven s) :
      Moves s (.displayOn l) (onBus .hi (sentFrame [0x88 ||| l.setWidth 8]) .hi (0x88 ||| l.setWidth 8) s)
  | keyScan (hp : PinsDriven s) :
      Moves s .keyScan (onBus .lo (.wr .stb false :: sentByte 0x42) .lo 0x42 s)
  | addr (a : RamAddr) (hp : PinsDriven s) :
      Moves s (.addr a) (onBus .lo (.wr .stb false :: sentByte (0xC0 ||| a.setWidth 8)) .hi (0xC0 ||| a.setWidth 8) s)

variable {s t : State} {i : Instr}

/-! ### Undriven pins stop the model (70_reset_and_hazards.md R199) -/

theorem sendByte_undriven (v : Byte) (h : ¬(s.clk.dir = .out ∧ s.dio.dir = .out)) :
    ∃ p, sendByte v s = .error (.model (.pinNotOutput p)) := by
  by_cases hc : s.clk.dir = .out
  · refine ⟨.dio, ?_⟩
    have hd : s.dio.dir ≠ .out := fun hd => h ⟨hc, hd⟩
    simp [sendByte, List.range_succ, sendBit, pinWrite, State.pin, hc, hd, bind, Except.bind]
  · refine ⟨.clk, ?_⟩
    simp [sendByte, List.range_succ, sendBit, pinWrite, State.pin, hc, bind, Except.bind]

theorem receiveByte_undriven (h : s.clk.dir ≠ .out) : receiveByte s = .error (.model (.pinNotOutput .clk)) := by
  simp [receiveByte, List.range_succ, receiveBit, pinWrite, State.pin, h, bind, Except.bind, pinCfg, setPin]

theorem openFrame_undriven (c : Byte) (h : ¬PinsDriven s) : ∃ p, openFrame c s = .error (.model (.pinNotOutput p)) := by
  by_cases hs : s.stb.dir = .out
  · obtain ⟨p, hp⟩ := sendByte_undriven (s := emit (.wr .stb false) (setPin .stb ⟨.out, .lo⟩ s)) c
      (fun hd => h ⟨hs, hd.1, hd.2⟩)
    refine ⟨p, ?_⟩
    simp only [openFrame, beginFrame, pinWrite_driven (s := s) .stb false hs, bind, Except.bind]
    exact hp
  · refine ⟨.stb, ?_⟩
    simp [openFrame, beginFrame, pinWrite_undriven (s := s) .stb false hs, bind, Except.bind]

theorem cmd_undriven (c : Byte) (h : ¬PinsDriven s) : ∃ p, cmd c s = .error (.model (.pinNotOutput p)) := by
  obtain ⟨p, hp⟩ := openFrame_undriven c h
  exact ⟨p, by simp [cmd, hp, bind, Except.bind]⟩

theorem writeData_undriven (a : RamAddr) (d : Byte) (h : ¬PinsDriven s) :
    ∃ p, writeData a d s = .error (.model (.pinNotOutput p)) := by
  obtain ⟨p, hp⟩ := cmd_undriven modeFixedByte h
  exact ⟨p, by simp [writeData, hp, bind, Except.bind]⟩

theorem readKeys_undriven (f : Byte → Byte → Byte → Byte → Word) (h : ¬PinsDriven s) :
    ∃ p, readKeys f s = .error (.model (.pinNotOutput p)) := by
  obtain ⟨p, hp⟩ := openFrame_undriven keyScanByte h
  exact ⟨p, by simp [readKeys, keyFrame, hp, bind, Except.bind]⟩

theorem setDigitBody_undriven (p : Pos) (c pattern : Byte) (dot : Bool) (h : ¬PinsDriven s)
    (hc : lookup s.font c = some pattern) : ∃ q, setDigitBody p c dot s = .error (.model (.pinNotOutput q)) := by
  obtain ⟨q, hq⟩ := writeData_undriven (rowAddress 0) (withDot (digitRow pattern 0 p) dot) h
  refine ⟨q, ?_⟩
  simp only [setDigitBody, lookupOrRaise, hc, bind, Except.bind]
  rw [show List.range Config.digitRows = 0 :: [1, 2, 3, 4, 5] from rfl, List.foldlM_cons, renderChar]
  simp only [bind, Except.bind]
  rw [show (0#3 : Pos) = 0 from rfl, hq]

theorem setTextBody_undriven (t : List Byte) (h : ¬PinsDriven s) :
    ∃ q, setTextBody t s = .error (.model (.pinNotOutput q)) := by
  obtain ⟨q, hq⟩ := writeData_undriven (s := { s with events := (dotEvents (dotByte t)).reverse ++ s.events })
    (rowAddress 7) (withDot (rot (dotBits (dotByte t))) false) h
  refine ⟨q, ?_⟩
  simp only [setTextBody, scanDot_eq, bind, Except.bind, renderChar, hq]

/-! ### SET_TEXT and the key reads as whole requests -/

theorem rowAddress_ofNat {r : Nat} (h : r < 8) : rowAddress (BitVec.ofNat 3 r) = BitVec.ofNat 4 (2 * r) := by
  interval_cases r <;> decide

theorem execSetText_known (t : List Byte) (on : s.initialized = true) (hp : PinsDriven s)
    (hk : allKnown s.font (shownChars t) = true) :
    execSetText t s = .next (completed (textStartEvents t ++ glyphEvents s.font t)
      (levelOf ((rot (textRow s.font t 6)).getLsbD 7)) (rot (textRow s.font t 6)) ⟨0, dotIsDropped t⟩ s) := by
  have row (r : Nat) : rowByte s.font (layout (removeDots t)) r = .ok (textRow s.font t r) := by
    obtain ⟨b, hb⟩ := rows_of_allKnown hk r
    rw [hb, textRow, rowFrom_bits _ _ _ _ _ hb]
  rw [execSetText, guardedRequest_ready _ _ on, setTextBody_known t _ hp (fun r _ => row r), textStart_eq,
    (dotPlane_eq t).2]
  rfl

theorem execSetText_unknown (t : List Byte) (c : Byte) (on : s.initialized = true) (hp : PinsDriven s)
    (hc : firstUnknown s.font (layout (removeDots t)) = some c) :
    execSetText t s = .next (fail .unknownChar (c.setWidth 32)
      (onBus .hi (textStartEvents t) (levelOf ((dotPlane t).getLsbD 7)) (dotPlane t) s)) := by
  rw [execSetText, guardedRequest_ready _ _ on, setTextBody_unknown t c hp (rowFrom_unknown _ _ _ _ _ hc), textStart_eq,
    (dotPlane_eq t).1]
  rfl

theorem execGetButtons_ready (on : s.initialized = true) (hp : PinsDriven s) : execGetButtons s =
    .next (completed (keyEvents s) .x (receivedFrom s 3) (keyReply combineOverlap s) (moved 32 s)) := by
  rw [execGetButtons, guardedRequest_ready _ _ on, readKeys_driven _ hp]; rfl

theorem execGetButtons64_ready (on : s.initialized = true) (hp : PinsDriven s) : execGetButtons64 s =
    .next (completed (keyEvents s) .x (receivedFrom s 3) (keyReply combineConcat s) (moved 32 s)) := by
  rw [execGetButtons64, guardedRequest_ready _ _ on, readKeys_driven _ hp]; rfl

/-! ### The two directions -/

/-- What a rule gives, `exec` answers: a request. -/
theorem exec_of_ends (h : Ends s i t) : exec i s = .next t := by
  cases h with
  | init b => exact execInit_eq b s
  | rotateBits x => rfl
  | reservedAB w => rfl
  | reservedCF w => rfl
  | notReady h off =>
    cases i <;> cases h <;>
      simp only [exec, execSendCommand, execSendData, execSetLed, execRenderChar, execSetDigit, execSetText, execGetButtons,
        execGetButtons64, guardedRequest_notReady _ _ off]
  | sendCommand c on hp => exact execSendCommand_ready c on hp
  | sendData a d on hp => exact execSendData_ready a d on hp
  | setLed p c on hp => exact execSetLed_ready p c on hp
  | renderChar p x dot on hp => exact execRenderChar_ready p x dot on hp
  | setDigit p c pattern dot on hp hc =>
    refine (execSetDigit_known p c pattern dot on hp hc).trans ?_
    simp only [digitByte_eq]
    rfl
  | setDigitUnknown p c dot on hc => exact execSetDigit_unknown p c dot on hc
  | setText x on hp hk => exact execSetText_known x on hp hk
  | setTextUnknown x c on hp hc => exact execSetText_unknown x c on hp hc
  | getButtons on hp => exact execGetButtons_ready on hp
  | getButtons64 on hp => exact execGetButtons64_ready on hp

/-- A request body that stops the model gives no next state. -/
theorem no_next_of_model {r : Res (Reply × State)} {p : Pin} (hr : r = .error (.model (.pinNotOutput p))) :
    concludeRequest r ≠ .next t := by subst hr; simp [concludeRequest]

/-- A guarded request that answers a next state without being ready has driven pins, unless its body is independent of
them. -/
theorem driven_of_next {r : Res (Reply × State)} (h : concludeRequest r = .next t)
    (stops : ¬PinsDriven s → ∃ p, r = .error (.model (.pinNotOutput p))) : PinsDriven s := by
  by_contra hp
  obtain ⟨p, hr⟩ := stops hp
  exact no_next_of_model hr h

theorem plain_model {r : Res State} {p : Pin} (hr : r = .error (.model (.pinNotOutput p))) :
    plain r = .error (.model (.pinNotOutput p)) := by subst hr; rfl

/-- Every next state of a request is one a rule gives. -/
theorem ends_of_exec (hr : isRequest i = true) (h : exec i s = .next t) : Ends s i t := by
  have same {u : State} (hu : Ends s i u) : Ends s i t := by
    have := (exec_of_ends hu).symm.trans h
    cases this; exact hu
  by_cases on : s.initialized = true
  · have ready {op : BitVec 4} {body : State → Res (Reply × State)} (hx : exec i s = guardedRequest op body s) :
        concludeRequest (body s) = .next t := by rw [← h, hx, guardedRequest_ready _ _ on]
    cases i with
    | init b => exact same (.init b)
    | rotateBits x => exact same (.rotateBits x)
    | reservedAB w => exact same (.reservedAB w)
    | reservedCF w => exact same (.reservedCF w)
    | sendCommand c =>
      refine same (.sendCommand c on (driven_of_next (ready (body := fun s => plain (cmd c s)) rfl) ?_))
      exact fun hp => (cmd_undriven c hp).imp fun _ => plain_model
    | sendData a d =>
      refine same (.sendData a d on (driven_of_next (ready (body := fun s => plain (writeData a d s)) rfl) ?_))
      exact fun hp => (writeData_undriven a d hp).imp fun _ => plain_model
    | setLed p c =>
      refine same (.setLed p c on (driven_of_next (ready (body := fun s => plain (writeData (ledAddress p) c s)) rfl) ?_))
      exact fun hp => (writeData_undriven _ c hp).imp fun _ => plain_model
    | renderChar p x dot =>
      refine same (.renderChar p x dot on (driven_of_next (ready (body := fun s => plain (Sys2Proof.Machine.renderChar p x dot s)) rfl) ?_))
      exact fun hp => (writeData_undriven _ _ hp).imp fun _ => plain_model
    | setDigit p c dot =>
      cases hc : lookup s.font c with
      | none => exact same (.setDigitUnknown p c dot on hc)
      | some pattern =>
        refine same (.setDigit p c pattern dot on (driven_of_next (ready (body := fun s => plain (setDigitBody p c dot s)) rfl) ?_) hc)
        exact fun hp => (setDigitBody_undriven p c pattern dot hp hc).imp fun _ => plain_model
    | setText x =>
      have hp : PinsDriven s := by
        refine driven_of_next (ready rfl) ?_
        exact fun hp => setTextBody_undriven x hp
      cases hk : allKnown s.font (shownChars x) with
      | true => exact same (.setText x on hp hk)
      | false =>
        obtain ⟨c, hc⟩ := firstUnknown_of_not_allKnown hk
        exact same (.setTextUnknown x c on hp hc)
    | getButtons =>
      refine same (.getButtons on (driven_of_next (ready rfl) ?_))
      exact fun hp => readKeys_undriven _ hp
    | getButtons64 =>
      refine same (.getButtons64 on (driven_of_next (ready rfl) ?_))
      exact fun hp => readKeys_undriven _ hp
    | sendByte v => cases hr
    | receiveByte => cases hr
    | modeAuto => cases hr
    | modeFixed => cases hr
    | keyScan => cases hr
    | displayOn l => cases hr
    | addr a => cases hr
  · have off : s.initialized = false := by simpa using on
    cases i with
    | init b => exact same (.init b)
    | rotateBits x => exact same (.rotateBits x)
    | reservedAB w => exact same (.reservedAB w)
    | reservedCF w => exact same (.reservedCF w)
    | sendCommand c => exact same (.notReady rfl off)
    | sendData a d => exact same (.notReady rfl off)
    | setLed p c => exact same (.notReady rfl off)
    | renderChar p x dot => exact same (.notReady rfl off)
    | setDigit p c dot => exact same (.notReady rfl off)
    | setText x => exact same (.notReady rfl off)
    | getButtons => exact same (.notReady rfl off)
    | getButtons64 => exact same (.notReady rfl off)
    | sendByte v => cases hr
    | receiveByte => cases hr
    | modeAuto => cases hr
    | modeFixed => cases hr
    | keyScan => cases hr
    | displayOn l => cases hr
    | addr a => cases hr

/-- What a rule gives, `exec` answers: a row of the transport. -/
theorem exec_of_moves (h : Moves s i t) : exec i s = .next t := by
  cases h with
  | sendByte v hc hd => simp [exec, execSendByte, concludeMicro, sendByte_driven v hc hd]
  | receiveByte hc => simp [exec, execReceiveByte, concludeMicro, receiveByte_driven hc]
  | modeAuto hp => simp only [exec, execModeAuto, modeAutoByte, concludeMicro, cmd_driven _ hp]; rfl
  | modeFixed hp => simp only [exec, execModeFixed, modeFixedByte, concludeMicro, cmd_driven _ hp]; rfl
  | displayOn l hp =>
    have bit7 : (0x88#8 ||| l.setWidth 8 : Byte).getLsbD 7 = true := by revert l; decide
    simp only [exec, execDisplayOn, displayOnByte, concludeMicro, cmd_driven _ hp, bit7]; rfl
  | keyScan hp => simp only [exec, execKeyScan, keyScanByte, concludeMicro, openFrame_driven _ hp]; rfl
  | addr a hp =>
    have bit7 : (0xC0#8 ||| a.setWidth 8 : Byte).getLsbD 7 = true := by revert a; decide
    simp only [exec, execAddr, addrByte, concludeMicro, openFrame_driven _ hp, bit7]; rfl

/-- A transport operation that stops the model gives no next state. -/
theorem driven_of_micro {r : Res State} {P : Prop} (h : concludeMicro r = .next t)
    (stops : ¬P → ∃ p, r = .error (.model (.pinNotOutput p))) : P := by
  by_contra hp
  obtain ⟨p, hr⟩ := stops hp
  subst hr
  cases h

/-- Every next state of a row of the transport is one a rule gives. -/
theorem moves_of_exec (hr : isRequest i = false) (h : exec i s = .next t) : Moves s i t := by
  have same {u : State} (hu : Moves s i u) : Moves s i t := by
    have := (exec_of_moves hu).symm.trans h
    cases this; exact hu
  cases i with
  | sendByte v =>
    have hp := driven_of_micro (P := s.clk.dir = .out ∧ s.dio.dir = .out) h (sendByte_undriven v)
    exact same (.sendByte v hp.1 hp.2)
  | receiveByte => exact same (.receiveByte (driven_of_micro h fun hc => ⟨.clk, receiveByte_undriven hc⟩))
  | modeAuto => exact same (.modeAuto (driven_of_micro h (cmd_undriven _)))
  | modeFixed => exact same (.modeFixed (driven_of_micro h (cmd_undriven _)))
  | displayOn l => exact same (.displayOn l (driven_of_micro h (cmd_undriven _)))
  | keyScan => exact same (.keyScan (driven_of_micro h (openFrame_undriven _)))
  | addr a => exact same (.addr a (driven_of_micro h (openFrame_undriven _)))
  | init b => cases hr
  | sendCommand c => cases hr
  | sendData a d => cases hr
  | setLed p c => cases hr
  | renderChar p x dot => cases hr
  | setDigit p c dot => cases hr
  | setText x => cases hr
  | getButtons => cases hr
  | getButtons64 => cases hr
  | rotateBits x => cases hr
  | reservedAB w => cases hr
  | reservedCF w => cases hr

end Sys2Proof.Machine
end

