-- ==== Sys2Proof/Laws/Memory.lean ====
section
/-! SUPPORT. The chip RAM as a list: what a write does to a read, and that every write keeps the canonical form. -/

namespace Sys2Proof.Machine

theorem readByte_putByte (m : Memory) (a x : Nat) (v : Byte) :
    readByte (putByte m a v) x = if x = a then some v else readByte m x := by
  induction m with
  | nil => simp [putByte, readByte]
  | cons cell rest ih =>
    obtain ⟨b, w⟩ := cell
    simp only [putByte]
    split
    · simp [readByte]
    · split
      · next hab => subst hab; by_cases hx : x = a <;> simp [readByte, hx]
      · simp only [readByte, ih]
        by_cases hx : x = b
        · subst hx; simp; omega
        · simp [hx]

/-- An address below every listed address reads as UNKNOWN. -/
theorem readByte_below (m : Memory) (a : Nat) (h : ∀ x ∈ m, a < x.1) : readByte m a = none := by
  induction m with
  | nil => rfl
  | cons cell rest ih =>
    have := h cell (by simp)
    simp [readByte, Nat.ne_of_lt this, ih (fun x hx => h x (by simp [hx]))]

theorem readByte_forgetByte (m : Memory) (h : m.Pairwise (fun x y => x.1 < y.1)) (a x : Nat) :
    readByte (forgetByte m a) x = if x = a then none else readByte m x := by
  induction m with
  | nil => simp [forgetByte, readByte]
  | cons cell rest ih =>
    obtain ⟨b, w⟩ := cell
    rw [List.pairwise_cons] at h
    simp only [forgetByte]
    split
    · next hab =>
      subst hab
      by_cases hx : x = a
      · subst hx; simp [readByte_below rest x h.1]
      · simp [readByte, hx]
    · simp only [readByte, ih h.2]
      by_cases hx : x = b
      · subst hx; simp; omega
      · simp [hx]

theorem mem_forgetByte {m : Memory} {a : Nat} {x : Host.Cell} (h : x ∈ forgetByte m a) : x ∈ m := by
  induction m with
  | nil => exact h
  | cons cell rest ih =>
    obtain ⟨b, w⟩ := cell
    simp only [forgetByte] at h
    split at h
    · exact List.mem_cons_of_mem _ h
    · rcases List.mem_cons.1 h with h | h
      · simp [h]
      · exact List.mem_cons_of_mem _ (ih h)

theorem mem_putByte {m : Memory} {a : Nat} {v : Byte} {x : Host.Cell} (h : x ∈ putByte m a v) : x = (a, v) ∨ x ∈ m := by
  induction m with
  | nil => simpa [putByte] using h
  | cons cell rest ih =>
    obtain ⟨b, w⟩ := cell
    simp only [putByte] at h
    split at h
    · simpa using h
    · split at h
      · rcases List.mem_cons.1 h with h | h
        · exact .inl h
        · exact .inr (List.mem_cons_of_mem _ h)
      · rcases List.mem_cons.1 h with h | h
        · simp [h]
        · rcases ih h with h | h
          · exact .inl h
          · exact .inr (List.mem_cons_of_mem _ h)

theorem putByte_sorted (m : Memory) (h : m.Pairwise (fun x y => x.1 < y.1)) (a : Nat) (v : Byte) :
    (putByte m a v).Pairwise (fun x y => x.1 < y.1) := by
  induction m with
  | nil => simp [putByte]
  | cons cell rest ih =>
    obtain ⟨b, w⟩ := cell
    rw [List.pairwise_cons] at h
    simp only [putByte]
    split
    · next hab =>
      refine List.pairwise_cons.2 ⟨fun x hx => ?_, List.pairwise_cons.2 h⟩
      rcases List.mem_cons.1 hx with hx | hx
      · simpa [hx] using hab
      · exact Nat.lt_trans hab (h.1 x hx)
    · split
      · next hab => subst hab; exact List.pairwise_cons.2 ⟨h.1, h.2⟩
      · refine List.pairwise_cons.2 ⟨fun x hx => ?_, ih h.2⟩
        rcases mem_putByte hx with hx | hx
        · simp [hx]; omega
        · exact h.1 x hx

theorem forgetByte_sorted (m : Memory) (h : m.Pairwise (fun x y => x.1 < y.1)) (a : Nat) :
    (forgetByte m a).Pairwise (fun x y => x.1 < y.1) := by
  induction m with
  | nil => simp [forgetByte]
  | cons cell rest ih =>
    obtain ⟨b, w⟩ := cell
    rw [List.pairwise_cons] at h
    simp only [forgetByte]
    split
    · exact h.2
    · exact List.pairwise_cons.2 ⟨fun x hx => h.1 x (mem_forgetByte hx), ih h.2⟩

/-- Every RAM write keeps the canonical form. -/
theorem writeByte_wf {m : Memory} (h : m.wf) (a : RamAddr) (d : Option Byte) : (writeByte m a d).wf := by
  cases d with
  | none => exact ⟨forgetByte_sorted m h.1 _, fun x hx => h.2 x (mem_forgetByte hx)⟩
  | some v =>
    refine ⟨putByte_sorted m h.1 _ _, fun x hx => ?_⟩
    rcases mem_putByte hx with hx | hx
    · simpa [hx, Config.ramSize] using a.isLt
    · exact h.2 x hx

/-- Writing the same byte twice is writing it once. -/
theorem putByte_putByte (m : Memory) (a : Nat) (v : Byte) : putByte (putByte m a v) a v = putByte m a v := by
  induction m with
  | nil => simp [putByte]
  | cons cell rest ih =>
    obtain ⟨b, w⟩ := cell
    simp only [putByte]
    split
    · simp [putByte]
    · split
      · simp [putByte]
      · next h1 h2 => simp [putByte, h1, h2, ih]

end Sys2Proof.Machine
end

