-- ==== Sys2Proof/Laws/Observer.lean ====
section
/-! SUPPORT. What the reference observer makes of the event lists the block emits (20_memory.md R61 to R66). -/

namespace Sys2Proof.Machine

theorem observeFrom_append (o : Observer) (e f : List Event) : observeFrom o (e ++ f) = observeFrom (observeFrom o e) f :=
  List.foldl_append

/-- Two observers that have seen the same wires. -/
def SameWires (o p : Observer) : Prop :=
  o.dioDir = p.dioDir ∧ o.dioLvl = p.dioLvl ∧ o.clkLow = p.clkLow ∧ o.frame = p.frame

/-- What the observer has seen of the wires does not depend on the chip. -/
theorem observeEvent_sameWires {o p : Observer} (h : SameWires o p) (e : Event) :
    SameWires (observeEvent o e) (observeEvent p e) := by
  obtain ⟨c, dir, lvl, low, frame⟩ := o
  obtain ⟨c', dir', lvl', low', frame'⟩ := p
  obtain ⟨rfl, rfl, rfl, rfl⟩ := h
  rcases e with ⟨q, d⟩ | ⟨q, v⟩ | ⟨q, v⟩ | _
  · cases q <;> exact ⟨rfl, rfl, rfl, rfl⟩
  · cases q <;> cases v <;> try exact ⟨rfl, rfl, rfl, rfl⟩
    · cases frame <;> exact ⟨rfl, rfl, rfl, rfl⟩
    · cases low <;> cases dir <;> exact ⟨rfl, rfl, rfl, rfl⟩
  · cases q <;> exact ⟨rfl, rfl, rfl, rfl⟩
  · exact ⟨rfl, rfl, rfl, rfl⟩

theorem observeFrom_sameWires {o p : Observer} (h : SameWires o p) (tr : List Event) :
    SameWires (observeFrom o tr) (observeFrom p tr) := by
  induction tr generalizing o p with
  | nil => exact h
  | cons e tr ih => exact ih (observeEvent_sameWires h e)

/-- The observer between frames with DIO an output, its chip in a given state. -/
structure Rest (o : Observer) (c : Chip) : Prop where
  frame : o.frame = none
  dir : o.dioDir = .out
  chip : o.chip = c

/-- The observer inside a frame, at a byte boundary, with DIO an output. -/
structure InFrame (o : Observer) (bytes : List (Option Byte)) (samples : List Bool) (c : Chip) : Prop where
  frame : o.frame = some ⟨[], bytes, samples⟩
  dir : o.dioDir = .out
  chip : o.chip = c

/-- Eight bits, first bit 0, are the byte they are the bits of. -/
theorem byteOfWritten_bits (v : Byte) :
    byteOfWritten [some (v.getLsbD 0), some (v.getLsbD 1), some (v.getLsbD 2), some (v.getLsbD 3), some (v.getLsbD 4),
      some (v.getLsbD 5), some (v.getLsbD 6), some (v.getLsbD 7)] = some v := by
  revert v; decide

theorem bitOfLevel_levelOf (b : Bool) : bitOfLevel (levelOf b) = some b := by cases b <;> rfl

/-- One sent cell is one written bit. -/
theorem observe_sentCell {o : Observer} {f : OpenFrame} (hf : o.frame = some f) (hd : o.dioDir = .out) (b : Bool) :
    observeFrom o (sentCell b) =
      { o with dioLvl := levelOf b, clkLow := false, frame := some (pushBit (some b) f) } := by
  simp [observeFrom, sentCell, observeEvent, risingEdge, hf, hd, bitOfLevel_levelOf]

/-- A run of sent cells is a run of written bits. -/
theorem observe_sentCells {o : Observer} {f : OpenFrame} (hf : o.frame = some f) (hd : o.dioDir = .out)
    (bits : List Bool) : ∃ lvl low, observeFrom o (bits.flatMap sentCell) =
      { o with dioLvl := lvl, clkLow := low, frame := some (bits.foldl (fun f b => pushBit (some b) f) f) } := by
  induction bits generalizing o f with
  | nil => exact ⟨o.dioLvl, o.clkLow, by simp [observeFrom, ← hf]⟩
  | cons b bits ih =>
    rw [List.flatMap_cons, observeFrom_append, observe_sentCell hf hd]
    exact ih (o := { o with dioLvl := levelOf b, clkLow := false, frame := some (pushBit (some b) f) }) rfl hd

/-- Eight written bits finish a byte (R63). -/
theorem pushBits_eight (b0 b1 b2 b3 b4 b5 b6 b7 : Bool) (bytes : List (Option Byte)) (samples : List Bool) :
    [b0, b1, b2, b3, b4, b5, b6, b7].foldl (fun f b => pushBit (some b) f) ⟨[], bytes, samples⟩ =
      ⟨[], bytes ++ [byteOfWritten [some b0, some b1, some b2, some b3, some b4, some b5, some b6, some b7]], samples⟩ := by
  simp [pushBit]

/-- A sent byte is the observer's next written byte (R46, R63). -/
theorem observe_sentByte {o : Observer} {bytes : List (Option Byte)} {samples : List Bool} {c : Chip}
    (h : InFrame o bytes samples c) (v : Byte) :
    InFrame (observeFrom o (sentByte v)) (bytes ++ [some v]) samples c := by
  have cells : sentByte v = ((List.range 8).map (fun i => v.getLsbD i)).flatMap sentCell := by
    simp [sentByte, List.flatMap_map]
  obtain ⟨lvl, low, run⟩ := observe_sentCells h.frame h.dir ((List.range 8).map (fun i => v.getLsbD i))
  rw [cells, run]
  refine ⟨?_, h.dir, h.chip⟩
  rw [← byteOfWritten_bits v]
  exact congrArg some (pushBits_eight _ _ _ _ _ _ _ _ _ _)

/-- Sent bytes are the observer's next written bytes. -/
theorem observe_sentBytes {o : Observer} {bytes : List (Option Byte)} {samples : List Bool} {c : Chip}
    (h : InFrame o bytes samples c) (vs : List Byte) :
    InFrame (observeFrom o (vs.flatMap sentByte)) (bytes ++ vs.map some) samples c := by
  induction vs generalizing o bytes with
  | nil => simpa [observeFrom] using h
  | cons v vs ih =>
    rw [List.flatMap_cons, observeFrom_append]
    simpa using ih (observe_sentByte h v)

/-- A received cell is one sample. -/
theorem observe_receivedCells {o : Observer} {f : OpenFrame} (hf : o.frame = some f) (hd : o.dioDir = .inPu)
    (bits : List Bool) :
    ∃ low, observeFrom o (bits.flatMap receivedCell) =
      { o with clkLow := low, frame := some { f with samples := f.samples ++ bits } } := by
  induction bits generalizing o f with
  | nil => exact ⟨o.clkLow, by simp [observeFrom, ← hf]⟩
  | cons b bits ih =>
    rw [List.flatMap_cons, observeFrom_append]
    have step : observeFrom o (receivedCell b) =
        { o with clkLow := false, frame := some { f with samples := f.samples ++ [b] } } := by
      simp [observeFrom, receivedCell, observeEvent, risingEdge, hf, hd]
    rw [step]
    obtain ⟨low, h⟩ := ih (o := { o with clkLow := false, frame := some { f with samples := f.samples ++ [b] } }) rfl hd
    exact ⟨low, by simpa using h⟩

/-- A received byte adds its samples and leaves DIO an output (R66). -/
theorem observe_receivedByte {o : Observer} {bytes : List (Option Byte)} {samples : List Bool} {c : Chip}
    (h : InFrame o bytes samples c) (bits : List Bool) :
    InFrame (observeFrom o (receivedByte bits)) bytes (samples ++ bits) c := by
  have start : observeFrom o (receivedByte bits) =
      observeFrom (observeFrom (observeEvent o (.cfg .dio .inPu)) (bits.flatMap receivedCell)) [.cfg .dio .out] := by
    rw [← observeFrom_append]; rfl
  obtain ⟨low, cells⟩ := observe_receivedCells (o := observeEvent o (.cfg .dio .inPu)) h.frame rfl bits
  rw [start, cells]
  exact ⟨rfl, rfl, h.chip⟩

/-- Opening a frame (R62). -/
theorem observe_open {o : Observer} {c : Chip} (h : Rest o c) : InFrame (observeFrom o [.wr .stb false]) [] [] c := by
  refine ⟨?_, h.dir, h.chip⟩
  simp [observeFrom, observeEvent, h.frame]

/-- Closing a frame acts on the chip (R62, R64). -/
theorem observe_close {o : Observer} {bytes : List (Option Byte)} {samples : List Bool} {c : Chip}
    (h : InFrame o bytes samples c) :
    Rest (observeFrom o [.wr .stb true]) (applyFrame ⟨[], bytes, samples⟩ c) := by
  have e : observeFrom o [.wr .stb true] = { o with chip := applyFrame ⟨[], bytes, samples⟩ o.chip, frame := none } := by
    simp [observeFrom, observeEvent, h.frame]
  rw [e]
  exact ⟨rfl, h.dir, by rw [h.chip]⟩

/-- A sent frame is one frame of its bytes (R62, R63, R64). -/
theorem observe_sentFrame {o : Observer} {c : Chip} (h : Rest o c) (vs : List Byte) :
    Rest (observeFrom o (sentFrame vs)) (applyFrame ⟨[], vs.map some, []⟩ c) := by
  have e : sentFrame vs = [.wr .stb false] ++ (vs.flatMap sentByte ++ [.wr .stb true]) := by simp [sentFrame]
  rw [e, observeFrom_append, observeFrom_append]
  simpa using observe_close (observe_sentBytes (observe_open h) vs)

/-- The key frame is one frame with its samples (R66). -/
theorem observe_keyFrame {o : Observer} {c : Chip} (h : Rest o c) (b0 b1 b2 b3 : List Bool) :
    Rest (observeFrom o (keyFrameEvents [b0, b1, b2, b3]))
      (applyFrame ⟨[], [some 0x42], b0 ++ b1 ++ b2 ++ b3⟩ c) := by
  have e : keyFrameEvents [b0, b1, b2, b3] = [.wr .stb false] ++ (sentByte 0x42 ++ (receivedByte b0 ++
      (receivedByte b1 ++ (receivedByte b2 ++ (receivedByte b3 ++ [.wr .stb true]))))) := by
    simp [keyFrameEvents]
  rw [e]
  simp only [observeFrom_append]
  have opened := observe_sentByte (observe_open h) 0x42
  exact observe_close (observe_receivedByte (observe_receivedByte (observe_receivedByte
    (observe_receivedByte opened b0) b1) b2) b3)

/-- INIT's pin configuration outside a frame leaves the chip alone and DIO an output. -/
theorem observe_config {o : Observer} (h : o.frame = none) : Rest (observeFrom o configEvents) o.chip := by
  obtain ⟨c, dir, lvl, low, frame⟩ := o
  obtain rfl : frame = none := h
  exact ⟨rfl, rfl, rfl⟩

/-- The dot diagnostic is nothing to the chip. -/
theorem observe_diagnostic {o : Observer} {c : Chip} (h : Rest o c) : Rest (observeFrom o [.dotDropped]) c :=
  ⟨h.frame, h.dir, h.chip⟩

/-! ### What the frames of the block do to the chip -/

theorem applyFrame_modeFixed (c : Chip) : applyFrame ⟨[], [some 0x44], []⟩ c = { c with mode := some .fixed } := by
  simp [applyFrame, dataCommand, errIf]

theorem applyFrame_modeAuto (c : Chip) : applyFrame ⟨[], [some 0x40], []⟩ c = { c with mode := some .auto } := by
  simp [applyFrame, dataCommand, errIf]

theorem addrByte_fields (a : RamAddr) :
    ((0xC0 ||| a.setWidth 8 : Byte).extractLsb' 6 2).toNat = 3 ∧ (0xC0 ||| a.setWidth 8 : Byte).extractLsb' 4 2 = 0 ∧
      (0xC0 ||| a.setWidth 8 : Byte).extractLsb' 0 4 = a := by
  revert a; decide

theorem displayOnByte_fields (l : BitVec 3) :
    ((0x88 ||| l.setWidth 8 : Byte).extractLsb' 6 2).toNat = 2 ∧ (0x88 ||| l.setWidth 8 : Byte).extractLsb' 4 2 = 0 ∧
      (0x88 ||| l.setWidth 8 : Byte).getLsbD 3 = true ∧ (0x88 ||| l.setWidth 8 : Byte).extractLsb' 0 3 = l := by
  revert l; decide

theorem applyFrame_address (a : RamAddr) (data : List (Option Byte)) (c : Chip) :
    applyFrame ⟨[], some (0xC0 ||| a.setWidth 8) :: data, []⟩ c = storeBytes { c with ptr := some a } data := by
  obtain ⟨h1, h2, h3⟩ := addrByte_fields a
  unfold applyFrame
  simp only [h1, addressCommand, h2, h3, errIf]
  simp

theorem applyFrame_displayOn (l : BitVec 3) (c : Chip) :
    applyFrame ⟨[], [some (0x88 ||| l.setWidth 8)], []⟩ c = { c with display := some (true, l) } := by
  obtain ⟨h1, h2, h3, h4⟩ := displayOnByte_fields l
  unfold applyFrame
  simp only [h1, displayControl, h2, h3, h4, errIf]
  simp

/-- The chip after one display-RAM write of the block. -/
def chipWrite (a : RamAddr) (d : Byte) (c : Chip) : Chip :=
  { c with ram := writeByte c.ram a (some d), mode := some .fixed, ptr := some a }

/-- The two frames of a write store one byte in FIXED mode (R65). -/
theorem observe_writeFrames {o : Observer} {c : Chip} (h : Rest o c) (a : RamAddr) (d : Byte) :
    Rest (observeFrom o (writeFrames a d)) (chipWrite a d c) := by
  rw [writeFrames, observeFrom_append]
  have r := observe_sentFrame (observe_sentFrame h [0x44]) [0xC0 ||| a.setWidth 8, d]
  simp only [List.map_cons, List.map_nil, applyFrame_modeFixed, applyFrame_address] at r
  simpa [storeBytes, storeByte, chipWrite] using r

/-- A run of writes, one after the other. -/
theorem observe_writes {o : Observer} {c : Chip} (h : Rest o c) (a : Nat → RamAddr) (d : Nat → Byte) (l : List Nat) :
    Rest (observeFrom o (l.flatMap (fun r => writeFrames (a r) (d r)))) (l.foldl (fun c r => chipWrite (a r) (d r) c) c) := by
  induction l generalizing o c with
  | nil => exact h
  | cons r l ih =>
    rw [List.flatMap_cons, observeFrom_append]
    exact ih (observe_writeFrames h _ _)

/-- A state at rest gives an observer between frames, for every start of the chip. -/
theorem rest_of_traceAtRest {s : State} (h : TraceAtRest s) (hd : s.dio.dir = .out) (s0 : Chip) :
    Rest (observeFrom (.start s0) s.trace) (observe s.trace s0) := by
  have same := observeFrom_sameWires (o := .start s0) (p := .start unknownChip) ⟨rfl, rfl, rfl, rfl⟩ s.trace
  exact ⟨same.2.2.2.trans h.1, same.1.trans (h.2.trans hd), rfl⟩

/-- These events lead from between frames to between frames. -/
def Keeps (e : List Event) : Prop := ∀ o c, Rest o c → ∃ c', Rest (observeFrom o e) c'

theorem keeps_append {e f : List Event} (h : Keeps e) (k : Keeps f) : Keeps (e ++ f) := by
  intro o c r
  obtain ⟨c', h⟩ := h o c r
  rw [observeFrom_append]
  exact k _ _ h

theorem keeps_sentFrame (vs : List Byte) : Keeps (sentFrame vs) := fun _ _ h => ⟨_, observe_sentFrame h vs⟩

theorem keeps_writes (a : Nat → RamAddr) (d : Nat → Byte) (l : List Nat) :
    Keeps (l.flatMap (fun r => writeFrames (a r) (d r))) := fun _ _ h => ⟨_, observe_writes h a d l⟩

theorem keeps_textStart (t : List Byte) : Keeps (textStartEvents t) := by
  have write : Keeps (writeFrames 14 (dotPlane t)) := fun _ _ h => ⟨_, observe_writeFrames h _ _⟩
  unfold textStartEvents
  cases dotIsDropped t
  · exact write
  · exact keeps_append (e := [.dotDropped]) (fun _ _ h => ⟨_, observe_diagnostic h⟩) write

/-- Events that keep the observer between frames keep the trace at rest. -/
theorem traceAtRest_append {s t : State} {e : List Event} (h : TraceAtRest s) (hs : s.dio.dir = .out) (k : Keeps e)
    (ht : t.trace = s.trace ++ e) (hd : t.dio.dir = .out) : TraceAtRest t := by
  obtain ⟨c', hc⟩ := k _ _ (rest_of_traceAtRest h hs unknownChip)
  rw [TraceAtRest, ht, observeFrom_append]
  exact ⟨hc.frame, hc.dir.trans hd.symm⟩

/-! ### The canonical form of the RAM -/

theorem storeBytes_wf (l : List (Option Byte)) (c : Chip) (h : c.ram.wf) : (storeBytes c l).ram.wf := by
  induction l generalizing c with
  | nil => exact h
  | cons d rest ih =>
    simp only [storeBytes]
    split
    · exact h
    · refine ih _ ?_
      simp only [storeByte]
      split <;> first | exact writeByte_wf h _ _ | exact h

theorem applyFrame_wf (f : OpenFrame) (c : Chip) (h : c.ram.wf) : (applyFrame f c).ram.wf := by
  simp only [applyFrame]
  split
  · exact h
  · exact h
  · split
    · simp only [dataCommand]
      split
      · exact h
      · split <;> exact h
    · simp only [displayControl]
      split <;> exact h
    · simp only [addressCommand]
      split
      · exact h
      · exact storeBytes_wf _ _ h
    · exact h

end Sys2Proof.Machine
end

