-- ==== Sys2Proof/Laws/PerInstr.lean ====
section
/-! SUPPORT. One lemma per instruction: its encoding decodes to it (30_encoding.md R73 to R91). -/

namespace Sys2Proof

/-- Decoding the encoding of an instruction gives it back, if it is well formed; a micro-operation has no encoding. -/
def Laws.Encoding.Statement (i : Instr) : Prop :=
  i.wellFormed = true → ∀ c, encode i = some c → decode c = .ok i

namespace Laws.Encoding

theorem init (b : Byte) : Statement (.init b) := by
  rintro - c ⟨⟩
  simp [decode, decodeRequest, isReservedAB, isReservedCF, decodeOp, onlyByte]

theorem sendCommand (b : Byte) : Statement (.sendCommand b) := by
  rintro - c ⟨⟩
  simp [decode, decodeRequest, isReservedAB, isReservedCF, decodeOp, onlyByte]

theorem sendData (a : RamAddr) (d : Byte) : Statement (.sendData a d) := by
  rintro - c ⟨⟩
  simp [decode, decodeRequest, isReservedAB, isReservedCF, decodeOp]

theorem setLed (p : Pos) (b : Byte) : Statement (.setLed p b) := by
  rintro - c ⟨⟩
  simp [decode, decodeRequest, isReservedAB, isReservedCF, decodeOp]

theorem renderChar (p : Pos) (x : Byte) (dot : Bool) : Statement (.renderChar p x dot) := by
  rintro - c ⟨⟩
  simp [decode, decodeRequest, isReservedAB, isReservedCF, decodeOp]

theorem setDigit (p : Pos) (b : Byte) (dot : Bool) : Statement (.setDigit p b dot) := by
  rintro - c ⟨⟩
  simp [decode, decodeRequest, isReservedAB, isReservedCF, decodeOp]

theorem setText (t : List Byte) : Statement (.setText t) := by
  rintro fits c ⟨⟩
  have short : t.length ≤ 255 := of_decide_eq_true fits
  have len : t.length % 256 = t.length := by omega
  obtain ⟨n, lanes⟩ := lanes_packText t
  simp [decode, decodeRequest, isReservedAB, isReservedCF, decodeOp, decodeText, textWordsOf, onlyByte, lanes, len,
    length_packText]

theorem getButtons : Statement .getButtons := by
  rintro - c ⟨⟩
  decide

theorem getButtons64 : Statement .getButtons64 := by
  rintro - c ⟨⟩
  decide

theorem rotateBits (x : Byte) : Statement (.rotateBits x) := by
  rintro - c ⟨⟩
  simp [decode, decodeRequest, isReservedAB, isReservedCF, decodeOp, onlyByte]

theorem reservedAB (w : Word) : Statement (.reservedAB w) := by
  rintro wf c ⟨⟩
  have op : opOf w = 0xA#4 ∨ opOf w = 0xB#4 := by simpa [Instr.wellFormed, isReservedAB] using wf
  rcases op with op | op <;> simp [decode, decodeRequest, isReservedAB, decodeOp, op]

theorem reservedCF (w : Word) : Statement (.reservedCF w) := by
  rintro wf c ⟨⟩
  have large : ∀ o : BitVec 4, 0xC#4 ≤ o → o = 0xC#4 ∨ o = 0xD#4 ∨ o = 0xE#4 ∨ o = 0xF#4 := by decide
  rcases large _ (of_decide_eq_true wf) with op | op | op | op <;>
    simp [decode, decodeRequest, isReservedCF, decodeOp, op]

theorem sendByte (v : Byte) : Statement (.sendByte v) := by
  rintro - c ⟨⟩

theorem receiveByte : Statement .receiveByte := by
  rintro - c ⟨⟩

theorem modeAuto : Statement .modeAuto := by
  rintro - c ⟨⟩
  decide

theorem modeFixed : Statement .modeFixed := by
  rintro - c ⟨⟩
  decide

theorem keyScan : Statement .keyScan := by
  rintro - c ⟨⟩
  decide

theorem displayOn (l : BitVec 3) : Statement (.displayOn l) := by
  rintro - c ⟨⟩
  revert l
  decide

theorem addr (a : RamAddr) : Statement (.addr a) := by
  rintro - c ⟨⟩
  revert a
  decide

end Laws.Encoding

end Sys2Proof
end

