-- ==== Sys2Proof/Laws/Pins.lean ====
section
/-! SUPPORT. What the block's event lists do to the pins: the levels they leave do not depend on the levels before
(10_state.md R22, R23). -/

namespace Sys2Proof.Machine

theorem pinAfter_append (p : Pin) (st : PinState) (e f : List Event) :
    pinAfter p st (e ++ f) = pinAfter p (pinAfter p st e) f := List.foldl_append

/-- From driven pins these events leave STB at a level, CLK high and DIO at a level. -/
def Drives (e : List Event) (a d : Level) : Prop :=
  ∀ p st, st.dir = .out →
    pinAfter p st e = match p with | .stb => ⟨.out, a⟩ | .clk => ⟨.out, .hi⟩ | .dio => ⟨.out, d⟩

theorem pinAfter_sentCell (p : Pin) (b : Bool) (st : PinState) (h : st.dir = .out) :
    pinAfter p st (sentCell b) = match p with | .stb => st | .clk => ⟨.out, .hi⟩ | .dio => ⟨.out, levelOf b⟩ := by
  obtain ⟨d, l⟩ := st
  cases h
  cases p <;> simp [pinAfter, pinAfterEvent, sentCell, levelOf]

theorem pinAfter_sentByte (p : Pin) (v : Byte) (st : PinState) (h : st.dir = .out) : pinAfter p st (sentByte v) =
    match p with | .stb => st | .clk => ⟨.out, .hi⟩ | .dio => ⟨.out, levelOf (v.getLsbD 7)⟩ := by
  cases p <;> simp [sentByte, List.range_succ, pinAfter_append, pinAfter_sentCell, h]

theorem pinAfter_sentBytes (p : Pin) (vs : List Byte) (v : Byte) (st : PinState) (h : st.dir = .out) :
    pinAfter p st ((vs ++ [v]).flatMap sentByte) =
      match p with | .stb => st | .clk => ⟨.out, .hi⟩ | .dio => ⟨.out, levelOf (v.getLsbD 7)⟩ := by
  induction vs generalizing st with
  | nil => simpa using pinAfter_sentByte p v st h
  | cons w vs ih =>
    have out : (pinAfter p st (sentByte w)).dir = .out := by
      rw [pinAfter_sentByte p w st h]; cases p <;> first | rfl | exact h
    rw [List.cons_append, List.flatMap_cons, pinAfter_append, ih _ out, pinAfter_sentByte p w st h]
    cases p <;> rfl

theorem drives_open (vs : List Byte) (v : Byte) :
    Drives (.wr .stb false :: (vs ++ [v]).flatMap sentByte) .lo (levelOf (v.getLsbD 7)) := by
  intro p st h
  have first : pinAfter p st (.wr .stb false :: (vs ++ [v]).flatMap sentByte) =
      pinAfter p (pinAfterEvent p st (.wr .stb false)) ((vs ++ [v]).flatMap sentByte) := rfl
  rw [first, pinAfter_sentBytes _ _ _ _ (by cases p <;> simp [pinAfterEvent, h])]
  cases p <;> simp [pinAfterEvent, h]

theorem drives_close {e : List Event} {a d : Level} (h : Drives e a d) : Drives (e ++ [.wr .stb true]) .hi d := by
  intro p st hs
  rw [pinAfter_append, h p st hs]
  cases p <;> rfl

theorem drives_append {e f : List Event} {a d b g : Level} (h : Drives e a d) (k : Drives f b g) : Drives (e ++ f) b g := by
  intro p st hs
  have out : (pinAfter p st e).dir = .out := by rw [h p st hs]; cases p <;> rfl
  rw [pinAfter_append, k _ _ out]

theorem drives_frame (vs : List Byte) (v : Byte) : Drives (sentFrame (vs ++ [v])) .hi (levelOf (v.getLsbD 7)) :=
  drives_close (drives_open vs v)

theorem drives_write (a : RamAddr) (d : Byte) : Drives (writeFrames a d) .hi (levelOf (d.getLsbD 7)) :=
  drives_append (drives_frame [] 0x44) (drives_frame [_] d)

/-- A run of writes, the last one to row r. -/
theorem drives_writes (a : Nat → RamAddr) (d : Nat → Byte) (r : Nat) (l : List Nat) :
    Drives ((l ++ [r]).flatMap (fun r => writeFrames (a r) (d r))) .hi (levelOf ((d r).getLsbD 7)) := by
  induction l with
  | nil => simpa using drives_write (a r) (d r)
  | cons q l ih => exact drives_append (drives_write _ _) ih

theorem drives_textStart (t : List Byte) : Drives (textStartEvents t) .hi (levelOf ((dotPlane t).getLsbD 7)) := by
  unfold textStartEvents
  cases dotIsDropped t
  · exact drives_write _ _
  · exact fun p st h => drives_write 14 (dotPlane t) p st h

theorem pinAfter_receivedByte (p : Pin) (bits : List Bool) (hb : bits.length = 8) (st : PinState) :
    pinAfter p st (receivedByte bits) = match p with | .stb => st | .clk => ⟨st.dir, .hi⟩ | .dio => ⟨.out, .x⟩ := by
  match bits, hb with
  | [a, b, c, d, e, f, g, h], _ => cases p <;> simp [pinAfter, pinAfterEvent, receivedByte, receivedCell]

theorem drives_received {e : List Event} {a d : Level} (h : Drives e a d) (bits : List Bool) (hb : bits.length = 8) :
    Drives (e ++ receivedByte bits) a .x := by
  intro p st hs
  rw [pinAfter_append, h p st hs, pinAfter_receivedByte _ _ hb]
  cases p <;> rfl

theorem keyEvents_eq (s : State) : keyEvents s =
    (.wr .stb false :: ([] ++ [0x42]).flatMap sentByte) ++ receivedByte (samplesOfByte s 0) ++
      receivedByte (samplesOfByte s 1) ++ receivedByte (samplesOfByte s 2) ++ receivedByte (samplesOfByte s 3) ++
      [.wr .stb true] := by
  simp [keyEvents, keyFrameEvents, List.range_succ]

theorem drives_key (s : State) : Drives (keyEvents s) .hi .x := by
  rw [keyEvents_eq]
  exact drives_close (drives_received (drives_received (drives_received (drives_received (drives_open [] _) _ rfl)
    _ rfl) _ rfl) _ rfl)

/-- The pins of a state after bus activity are what the events make of driven pins. -/
theorem pins_onBus {e : List Event} {a d : Level} {v : Byte} {s : State} (hp : PinsDriven s) (h : Drives e a d) :
    (onBus a e d v s).stb = pinAfter .stb s.stb e ∧ (onBus a e d v s).clk = pinAfter .clk s.clk e ∧
      (onBus a e d v s).dio = pinAfter .dio s.dio e :=
  ⟨(h .stb _ hp.1).symm, (h .clk _ hp.2.1).symm, (h .dio _ hp.2.2).symm⟩

end Sys2Proof.Machine
end

