-- ==== Sys2Proof/Laws/Step.lean ====
section
/-! SUPPORT. Acceptance and decoding as the step uses them (10_state.md R30, 30_encoding.md R83, R86, R91). -/

namespace Sys2Proof.Machine

/-- A whole request at the head of the port is accepted, and taken off it. -/
theorem accept_whole {s : State} {r : Request} {rest : List Word} (hp : s.port = r.word :: (r.text ++ rest))
    (hl : r.text.length = textWordsOf r.word) :
    accept s = some { s with req := r, port := rest, seq := .busy } := by
  obtain ⟨w, t⟩ := r
  simp only at hp hl
  simp [accept, hp, ← hl]

/-- Acceptance changes the latch, the port and SEQ, and nothing else. -/
theorem accept_eq {s t : State} (h : accept s = some t) :
    ∃ w rest, s.port = w :: rest ∧ textWordsOf w ≤ rest.length ∧
      t = { s with req := ⟨w, rest.take (textWordsOf w)⟩, port := rest.drop (textWordsOf w), seq := .busy } := by
  unfold accept at h
  split at h
  · cases h
  · next w rest hp =>
    split at h
    · cases h
    · next hl => cases h; exact ⟨w, rest, hp, Nat.le_of_not_lt hl, rfl⟩

/-- A request that decodes carries the text words its first word says (R91). -/
theorem length_of_decode {r : Request} {i : Instr} (h : decodeRequest r = .ok i) :
    r.text.length = textWordsOf r.word := by
  have ab : isReservedAB r.word ∨ isReservedCF r.word → textWordsOf r.word = 0 := by
    intro h
    unfold textWordsOf
    split
    · next h6 => simp [isReservedAB, isReservedCF, h6] at h
    · rfl
  unfold decodeRequest at h
  split at h
  · next hx =>
    split at h
    · next ht => rw [ab hx, ht]; rfl
    · cases h
  · split at h
    · cases h
    · split at h
      · cases h
      · next hn =>
        by_cases h6 : opOf r.word = 6#4
        · unfold decodeOp at h
          simp only [h6] at h
          have h : decodeText r = .ok i := h
          unfold decodeText at h
          split at h
          · cases h
          · next hh => exact not_not.1 hh
        · have : r.text = [] := by by_contra hh; exact hn ⟨h6, hh⟩
          simp [this, textWordsOf, h6]

/-- What the port carries decodes to requests only. -/
theorem isRequest_of_decode {r : Request} {i : Instr} (h : decodeRequest r = .ok i) : isRequest i = true := by
  have hop : decodeOp r = .ok i → isRequest i = true := by
    intro h
    unfold decodeOp at h
    simp only [onlyOp, onlyByte, decodeText] at h
    split at h <;> (try split at h) <;> (try split at h) <;> (try split at h) <;> cases h <;> rfl
  unfold decodeRequest at h
  split at h
  · split at h
    · exact hop h
    · cases h
  · split at h
    · cases h
    · split at h
      · cases h
      · exact hop h

/-- The k-th lane of text words (R86). -/
theorem lanes_getElem? (t : List Word) (k : Nat) :
    (t.flatMap lanesOf)[k]? = (t[k / 4]?).map (fun w => w.extractLsb' (8 * (k % 4)) 8) := by
  induction t generalizing k with
  | nil => simp
  | cons w t ih =>
    by_cases hk : k < 4
    · have : k / 4 = 0 := by omega
      rw [this, List.flatMap_cons, List.getElem?_append_left (by simp [lanesOf]; omega)]
      interval_cases k <;> simp [lanesOf]
    · obtain ⟨j, rfl⟩ := Nat.exists_eq_add_of_le (Nat.le_of_not_lt hk)
      rw [List.flatMap_cons, List.getElem?_append_right (by simp [lanesOf])]
      have e : 4 + j - (lanesOf w).length = j := by simp [lanesOf]
      rw [e, ih, show (4 + j) / 4 = j / 4 + 1 by omega, show (4 + j) % 4 = j % 4 by omega]
      simp

/-- The decoder's padding check is R86's. -/
theorem padding_iff (r : Request) :
    ((r.text.flatMap lanesOf).drop (byteOf r.word).toNat).all (fun b => b == 0) = true ↔
      ¬ badPadding r := by
  rw [List.all_eq_true]
  constructor
  · rintro h ⟨k, w, hk, hw, hne⟩
    have : (r.text.flatMap lanesOf)[k]? = some (w.extractLsb' (8 * (k % 4)) 8) := by rw [lanes_getElem?, hw]; rfl
    have m : w.extractLsb' (8 * (k % 4)) 8 ∈ (r.text.flatMap lanesOf).drop (byteOf r.word).toNat := by
      refine List.mem_iff_getElem?.2 ⟨k - (byteOf r.word).toNat, ?_⟩
      rw [List.getElem?_drop, show (byteOf r.word).toNat + (k - (byteOf r.word).toNat) = k by omega, this]
    exact hne (by simpa using h _ m)
  · intro h b hb
    obtain ⟨j, hj⟩ := List.mem_iff_getElem?.1 hb
    rw [List.getElem?_drop, lanes_getElem?] at hj
    by_contra hne
    obtain ⟨w, hw, rfl⟩ := Option.map_eq_some_iff.1 hj
    exact h ⟨(byteOf r.word).toNat + j, w, by omega, hw, by simpa using hne⟩

end Sys2Proof.Machine
end

