-- ==== Sys2Proof/Tests/Slice0.lean ====
section
/-! SUPPORT. The model's own tests, and a witness for the hypotheses of every statement. Every expected value of a test is
the spec's: a worked example or a vector of 95_test_vectors.md, or a word written out from the tables of 30_encoding.md. -/

namespace Sys2Proof.Tests

open Sys2Proof.Machine

/-! ### Start states -/

/-- The test font FONT_REF (95_test_vectors.md, section 0). -/
def fontRef : List (Byte × Byte) :=
  [(0x30, 0x3F), (0x31, 0x06), (0x32, 0x5B), (0x33, 0x4F), (0x34, 0x66), (0x35, 0x6D), (0x36, 0x7D), (0x37, 0x07),
   (0x38, 0x7F), (0x39, 0x6F)]

/-- The block "after INIT" (95_test_vectors.md, section 0), TRACE from here on. -/
def afterInit : State :=
  { State.reset with
    stb := ⟨.out, .hi⟩
    clk := ⟨.out, .hi⟩
    dio := ⟨.out, .lo⟩
    intensity := 7
    powerOn := true
    initialized := true
    font := fontRef }

/-- The observer "after INIT". -/
def chipAfterInit : Chip :=
  ⟨(List.range 16).map (fun a => (a, 0)), some .auto, none, some (true, 7), [], false⟩

/-- The chip after a trace that began after INIT. -/
def chipOf (s : State) : Chip := (observeFrom ⟨chipAfterInit, .out, .lo, false, none⟩ s.trace).chip

/-- A property of the next state; false of a fault or a refusal. -/
def nextHas (o : Host.Outcome State Fault Refusal) (p : State → Bool) : Bool :=
  match o with
  | .next s => p s
  | .fault _ => false
  | .refused _ => false

/-- The levels of a byte, least significant bit first. -/
def levelsOf (b : Byte) : List Bool := (List.range 8).map (fun i => b.getLsbD i)

/-- The block after INIT, with four key bytes to come. -/
def withKeys (k0 k1 k2 k3 : Byte) : State :=
  { afterInit with dioLevels := levelsOf k0 ++ levelsOf k1 ++ levelsOf k2 ++ levelsOf k3 }

/-! ### Well-formedness: an ill-formed term for each check, refused -/

theorem test_wellFormed_longText : (Instr.setText (List.replicate 256 0x31)).wellFormed = false := by decide +kernel

theorem test_wellFormed_longestText : (Instr.setText (List.replicate 255 0x31)).wellFormed = true := by decide +kernel

theorem test_wellFormed_reservedAB : (Instr.reservedAB 0x0000000C).wellFormed = false := by decide

theorem test_wellFormed_reservedCF : (Instr.reservedCF 0x0000000B).wellFormed = false := by decide

/-! ### Decoding: words written out from the tables of 30_encoding.md -/

/-- V-C11. -/
theorem test_decode_init : decodeTableWord 32 0x00000300 = some (.init 3) := by decide

/-- V-C5. -/
theorem test_decode_sendCommand : decodeTableWord 32 0x0000C501 = some (.sendCommand 0xC5) := by decide

/-- V-C7. -/
theorem test_decode_sendData : decodeTableWord 32 0x000F0002 = some (.sendData 15 0) := by decide

/-- V-L3. -/
theorem test_decode_setLed : decodeTableWord 32 0x0000FF73 = some (.setLed 7 0xFF) := by decide

/-- V-P4. -/
theorem test_decode_renderChar : decodeTableWord 32 0x00008074 = some (.renderChar 7 0x80 false) := by decide

/-- V-D2a. -/
theorem test_decode_setDigit : decodeTableWord 32 0x000038D5 = some (.setDigit 5 0x38 true) := by decide

/-- V-T7: the text words follow in the bits above 31. -/
theorem test_decode_setText :
    decodeTableWord 32 0x00000034332E323100000506 = some (.setText [0x31, 0x32, 0x2E, 0x33, 0x34]) := by decide

/-- A SET_TEXT row with no bits above 31: one text word of zeros for LEN = 1. -/
theorem test_decode_setText_zeros : decodeTableWord 32 0x00000106 = some (.setText [0]) := by decide

theorem test_decode_getButtons : decodeTableWord 32 0x00000007 = some .getButtons := by decide

theorem test_decode_getButtons64 : decodeTableWord 32 0x00000008 = some .getButtons64 := by decide

/-- V-R1. -/
theorem test_decode_rotateBits : decodeTableWord 32 0x0000A509 = some (.rotateBits 0xA5) := by decide

/-- The RESERVED rows: every other bit of the word is free (R89). -/
theorem test_decode_reserved : decodeTableWord 32 0xFFF3458B = some (.reservedAB 0xFFF3458B) ∧
    decodeTableWord 32 0x0000000C = some (.reservedCF 0x0000000C) := by decide

/-- R73 to R77. -/
theorem test_decode_wire : decodeTableWord 8 0x40 = some .modeAuto ∧ decodeTableWord 8 0x44 = some .modeFixed ∧
    decodeTableWord 8 0x42 = some .keyScan ∧ decodeTableWord 8 0x8F = some (.displayOn 7) ∧
    decodeTableWord 8 0xCA = some (.addr 10) ∧ decodeTableWord 8 0x80 = none ∧ decodeTableWord 8 0xD0 = none := by decide

/-- V-E3 to V-E8: each illegal request is rejected by the name of what is wrong. -/
theorem test_decode_illegal :
    decodeRequest ⟨0x00100109, []⟩ = .error .reservedBits ∧ decodeRequest ⟨0x00000183, []⟩ = .error .unusedField ∧
    decodeRequest ⟨0x00000107, []⟩ = .error .unusedField ∧ decodeRequest ⟨0x00010112, []⟩ = .error .unusedField ∧
    decodeRequest ⟨0x00000106, [0x00003131]⟩ = .error .textPadding ∧
    decodeRequest ⟨0x00010004, []⟩ = .error .unusedField := by decide

/-! ### Instructions, one step each -/

/-- E3: `init 99` from reset. -/
theorem test_init_99 : nextHas (exec (.init 99) State.reset) (fun s =>
    s.trace == initEvents 7 && s.intensity == 7 && s.powerOn && s.initialized && s.rspPort == [0, 0]) = true := by
  decide +kernel

/-- V-C11: `init 3`, the chip blank and on at level 3. -/
theorem test_init_3_chip : nextHas (exec (.init 3) State.reset) (fun s =>
    observe s.trace unknownChip ==
      ⟨(List.range 16).map (fun a => (a, 0)), some .auto, none, some (true, 3), [], false⟩) = true := by
  decide +kernel

/-- V-C1, V-W1: the 26 events of `send_command 0x8F`. -/
theorem test_sendCommand_events : nextHas (exec (.sendCommand 0x8F) afterInit) (fun s => s.trace ==
    [.wr .stb false,
     .wr .clk false, .wr .dio true, .wr .clk true, .wr .clk false, .wr .dio true, .wr .clk true,
     .wr .clk false, .wr .dio true, .wr .clk true, .wr .clk false, .wr .dio true, .wr .clk true,
     .wr .clk false, .wr .dio false, .wr .clk true, .wr .clk false, .wr .dio false, .wr .clk true,
     .wr .clk false, .wr .dio false, .wr .clk true, .wr .clk false, .wr .dio true, .wr .clk true,
     .wr .stb true]) = true := by
  decide +kernel

/-- V-C4: a command byte of class 00 sets ERR and changes nothing else of the chip. -/
theorem test_sendCommand_unknownClass : nextHas (exec (.sendCommand 0x00) afterInit) (fun s =>
    chipOf s == { chipAfterInit with err := true }) = true := by
  decide +kernel

/-- V-C6. -/
theorem test_sendData_chip : nextHas (exec (.sendData 3 0x5A) afterInit) (fun s =>
    readByte (chipOf s).ram 3 == some 0x5A && readByte (chipOf s).ram 2 == some 0 && (chipOf s).mode == some .fixed &&
    s.rspPort == [0, 0]) = true := by
  decide +kernel

/-- V-L2. -/
theorem test_setLed_odd : nextHas (exec (.setLed 7 0x01) afterInit) (fun s =>
    s.trace == sentFrame [0x44] ++ sentFrame [0xCF, 0x01]) = true := by
  decide +kernel

/-- V-P2. -/
theorem test_renderChar_dot : nextHas (exec (.renderChar 3 0x3F true) afterInit) (fun s =>
    s.trace == sentFrame [0x44] ++ sentFrame [0xC6, 0xBF]) = true := by
  decide +kernel

/-- V-P4: without the dot, bit 7 of the pattern is sent as given. -/
theorem test_renderChar_bit7 : nextHas (exec (.renderChar 7 0x80 false) afterInit) (fun s =>
    s.trace == sentFrame [0x44] ++ sentFrame [0xCE, 0x80]) = true := by
  decide +kernel

/-- V-D1: '5' at position 2. -/
theorem test_setDigit_rows : nextHas (exec (.setDigit 2 0x35 false) afterInit) (fun s => s.trace ==
    writeFrames 0 0x04 ++ writeFrames 2 0x00 ++ writeFrames 4 0x04 ++ writeFrames 6 0x04 ++ writeFrames 8 0x00 ++
      writeFrames 10 0x04) = true := by
  decide +kernel

/-- V-D2c: an unknown character faults before any event. -/
theorem test_setDigit_unknown :
    nextHas (exec (.setDigit 0 0x41 false) { afterInit with req := ⟨0x00004105, []⟩ }) (fun s =>
      s.trace == [] && s.rspPort == [1, 0] && s.faultLog == [⟨⟨0x00004105, []⟩, 1, 0x41⟩]) = true := by
  decide +kernel

/-- V-T2: "1.5". -/
theorem test_setText_dot : nextHas (exec (.setText [0x31, 0x2E, 0x35]) afterInit) (fun s =>
    s.trace == writeFrames 14 2 ++ writeFrames 0 1 ++ writeFrames 2 2 ++ writeFrames 4 3 ++ writeFrames 6 1 ++
      writeFrames 8 0 ++ writeFrames 10 1 ++ writeFrames 12 1) = true := by
  decide +kernel

/-- V-T13: "1X" faults after the row-plane 7 write. -/
theorem test_setText_unknown : nextHas (exec (.setText [0x31, 0x58]) afterInit) (fun s =>
    s.trace == sentFrame [0x44] ++ sentFrame [0xCE, 0x00] && s.rspPort == [1, 0] && s.stb == ⟨.out, .hi⟩ &&
    s.faultLog == [⟨⟨0, []⟩, 1, 0x58⟩]) = true := by
  decide +kernel

/-- V-K4, V-K5: the bytes overlap. -/
theorem test_getButtons_overlap : nextHas (exec .getButtons (withKeys 0x00 0x01 0x00 0x00)) (fun s =>
    s.rspPort == [0, 0x00000002] && s.dio == ⟨.out, .x⟩ && s.trace.length == 130) = true := by
  decide +kernel

/-- E1: 01 02 04 08 give 0x55. -/
theorem test_getButtons_or : nextHas (exec .getButtons (withKeys 0x01 0x02 0x04 0x08)) (fun s =>
    s.rspPort == [0, 0x00000055] && (chipOf s).keysRead == [[0x01, 0x02, 0x04, 0x08]] &&
    (chipOf s).mode == some .auto) = true := by
  decide +kernel

/-- V-K9. -/
theorem test_getButtons64_concat : nextHas (exec .getButtons64 (withKeys 0x78 0x56 0x34 0x12)) (fun s =>
    s.rspPort == [0, 0x12345678]) = true := by
  decide +kernel

/-- V-E11: `rotate_bits 0x12` is legal before INIT. -/
theorem test_rotateBits_beforeInit : nextHas (step (State.reset.withFetchWord 32 0x00001209)) (fun s =>
    s.rspPort == [0, 0x21] && s.trace == [] && s.faultLog == []) = true := by
  decide +kernel

/-- V-E1. -/
theorem test_reservedAB : nextHas (step (afterInit.withFetchWord 32 0x0000000A)) (fun s =>
    s.rspPort == [2, 0] && s.trace == [] && s.faultLog == [⟨⟨0xA, []⟩, 2, 0xA⟩] && s.initialized) = true := by
  decide +kernel

/-- V-E2. -/
theorem test_reservedCF : nextHas (step (afterInit.withFetchWord 32 0x0000000F)) (fun s =>
    s.rspPort == [2, 0] && s.faultLog == [⟨⟨0xF, []⟩, 2, 0xF⟩]) = true := by
  decide +kernel

/-- V-W2: 0xA5 drives DIO with 1, 0, 1, 0, 0, 1, 0, 1. -/
theorem test_sendByte_order : nextHas (exec (.sendByte 0xA5) afterInit) (fun s =>
    s.trace.filterMap (fun e => match e with | .wr .dio v => some v | _ => none) ==
      [true, false, true, false, false, true, false, true]) = true := by
  decide +kernel

/-- V-W3: the draws 1, 0, 1, 0, 0, 1, 0, 1 give 0xA5, and DIO is an output at X. -/
theorem test_receiveByte_order :
    nextHas (exec .receiveByte { afterInit with dioLevels := [true, false, true, false, false, true, false, true] })
      (fun s => s.shift == 0xA5 && s.dio == ⟨.out, .x⟩ && s.trace.length == 26 &&
        s.trace.take 3 == [.cfg .dio .inPu, .wr .clk false, .rd .dio true]) = true := by
  decide +kernel

/-- R73, R64. -/
theorem test_modeAuto : nextHas (step ({ afterInit with wire := [] }.withFetchWord 8 0x40)) (fun s =>
    s.trace == sentFrame [0x40] && chipOf s == chipAfterInit) = true := by
  decide +kernel

/-- R74, R64. -/
theorem test_modeFixed : nextHas (step (afterInit.withFetchWord 8 0x44)) (fun s =>
    chipOf s == { chipAfterInit with mode := some .fixed }) = true := by
  decide +kernel

/-- R76, R64. -/
theorem test_displayOn : nextHas (step (afterInit.withFetchWord 8 0x8B)) (fun s =>
    chipOf s == { chipAfterInit with display := some (true, 3) }) = true := by
  decide +kernel

/-- R75, R71: the key frame's first byte, STB still low. -/
theorem test_keyScan : nextHas (step (afterInit.withFetchWord 8 0x42)) (fun s =>
    s.trace == .wr .stb false :: sentByte 0x42 && s.stb == ⟨.out, .lo⟩) = true := by
  decide +kernel

/-- R77, R71: a write frame's first byte, STB still low. -/
theorem test_addr : nextHas (step (afterInit.withFetchWord 8 0xC3)) (fun s =>
    s.trace == .wr .stb false :: sentByte 0xC3 && s.stb == ⟨.out, .lo⟩) = true := by
  decide +kernel

/-! ### The envelope, the port, reset -/

/-- V-E9, V-E12: GET_BUTTONS before INIT, and the illegal word before it. -/
theorem test_envelope_order :
    nextHas (step (State.reset.withFetchWord 32 0x00000007)) (fun s =>
      s.rspPort == [3, 0] && s.faultLog == [⟨⟨7, []⟩, 3, 7⟩]) = true ∧
    nextHas (step (State.reset.withFetchWord 32 0x00000107)) (fun s =>
      s.rspPort == [2, 0] && s.faultLog == [⟨⟨0x107, []⟩, 2, 0x107⟩]) = true := by
  decide +kernel

/-- R83, R91: a SET_TEXT of five codes waits for its second text word. -/
theorem test_port_waits : step { afterInit with port := [0x00000506, 0x332E3231] } =
    .next { afterInit with port := [0x00000506, 0x332E3231] } := rfl

/-- R191: a reset ten events into a SET_LED: no response, TRACE empty, the pins not driven. -/
theorem test_reset_insideRequest :
    nextHas (step { afterInit with port := [0x00000103, 0x00000007], resetIn := some 11 }) (fun s =>
      s.rspPort == [] && s.trace == [] && s.stb == ⟨.unconf, .x⟩ && !s.initialized && s.port == [0x00000007] &&
      s.resetIn == none) = true := by
  decide +kernel

/-! ### What the requests compute -/

/-- V-R1, V-R3. -/
theorem test_rot : rot 0x12 = 0x21 ∧ rot 0x80 = 0x08 ∧ rot 0xC3 = 0x3C ∧
    (List.range 8).map (fun p => match dotByteAt p with | .placed b => rot b | _ => 0) =
      [0x80, 0x40, 0x20, 0x10, 0x08, 0x04, 0x02, 0x01] := by decide

/-- The STRIPPED basis: "1.5" resolves one place lower (E4), and a last '.' is past the table (R141). -/
theorem test_dot_stripped : dotByteOn .stripped [0x31, 0x2E, 0x35] = .placed 0x10 ∧
    dotByteOn .stripped [0x31, 0x35, 0x2E] = .beyond := by decide

/-- V-T1: "12345678" gives "43218765". -/
theorem test_layout : layout [0x31, 0x32, 0x33, 0x34, 0x35, 0x36, 0x37, 0x38] =
    [0x34, 0x33, 0x32, 0x31, 0x38, 0x37, 0x36, 0x35] := by decide

/-- V-T14: the rows of "1234" before rotation. -/
theorem test_rows : (List.range 7).map (rowByte fontRef (layout [0x31, 0x32, 0x33, 0x34])) =
    [.ok 0x60, .ok 0xF0, .ok 0xB0, .ok 0x60, .ok 0x40, .ok 0x10, .ok 0x70] := by decide

/-- C1: with ROT_NET = 0, the reading set aside, the rotation is the identity. -/
theorem test_rot_zero : rotBy 0 0x12 = 0x12 := by decide

/-! ### The reference observer -/

/-- The observer's chip after frames, from a start between frames with DIO an output. -/
def chipAfter (c : Chip) (frames : List (List Byte)) : Chip :=
  (observeFrom ⟨c, .out, .x, false, none⟩ (frames.flatMap sentFrame)).chip

/-- V-O1. -/
theorem test_observer_unknownMode : (chipAfter unknownChip [[0xC0, 0x00]]).err = true ∧
    (chipAfter unknownChip [[0xC0, 0x00]]).ram = [] := by decide +kernel

/-- V-O3. -/
theorem test_observer_pastLastAddress :
    chipAfter { unknownChip with mode := some .auto } [0xC1 :: List.replicate 16 0x00] =
      ⟨(List.range' 1 15).map (fun a => (a, 0)), some .auto, none, none, [], true⟩ := by decide +kernel

/-- V-O4. -/
theorem test_observer_fixed : chipAfter { unknownChip with mode := some .fixed } [[0xC3, 0x11, 0x22]] =
    ⟨[(3, 0x22)], some .fixed, some 3, none, [], false⟩ := by decide +kernel

/-- V-O5, V-O6. -/
theorem test_observer_err : chipAfter unknownChip [[0x40, 0x00]] = { unknownChip with mode := some .auto, err := true } ∧
    chipAfter unknownChip [[0x90]] = { unknownChip with err := true } := by decide +kernel

/-! ### The assembler -/

/-- The lines of P2 and P1 (95_test_vectors.md, part 3). -/
theorem test_assembler_lines :
    assemble "set_led 7, 0x02".toList = .ok (some (.setLed 7 2)) ∧
    assemble "set_text \"12.34\"    ; a comment".toList = .ok (some (.setText [0x31, 0x32, 0x2E, 0x33, 0x34])) ∧
    assemble "set_digit 5, '8', dot".toList = .ok (some (.setDigit 5 0x38 true)) ∧
    assemble "send_data 14, 0xFF".toList = .ok (some (.sendData 14 0xFF)) ∧
    assemble "send_data 16, 0xFF".toList = .error .outOfRange ∧
    assemble "; only a comment".toList = .ok none := by decide +kernel

/-- R92: a character is quoted or an integer code. -/
theorem test_assembler_char : assemble "set_digit 2, 0x35".toList = assemble "set_digit 2, '5'".toList := by
  decide +kernel

/-- R92: the two escapes of a text. -/
theorem test_assembler_escapes : assemble "set_text \"a\\\"b\\\\c\"".toList =
    .ok (some (.setText [0x61, 0x22, 0x62, 0x5C, 0x63])) := by decide +kernel

/-! ### Witnesses: states and operands that meet the hypotheses of each statement -/

/-- The block after INIT, with INIT's configuration events in TRACE. -/
def readyState : State := { afterInit with events := configEvents.reverse }

/-- The invariant holds of an initialized state. -/
theorem ready_inv : Inv readyState where
  idle := rfl
  wireEmpty := rfl
  atRest := fun _ => ⟨.lo, rfl, rfl, rfl⟩
  untouched := nofun
  power := rfl
  status := by decide
  diag := nofun
  faultResult := fun h => absurd rfl h
  traceAtRest := ⟨rfl, rfl⟩

/-- The ready state with words on its port. -/
def readyWith (port : List Word) : State := { readyState with port := port }

theorem readyWith_inv (port : List Word) : Inv (readyWith port) where
  idle := rfl
  wireEmpty := rfl
  atRest := fun _ => ⟨.lo, rfl, rfl, rfl⟩
  untouched := nofun
  power := rfl
  status := by show (0#4).toNat ≤ 3; decide
  diag := nofun
  faultResult := fun h => absurd rfl h
  traceAtRest := ⟨rfl, rfl⟩

/-- The hypotheses that most statements share: initialized, and the pins driven. -/
theorem ready : readyState.initialized = true ∧ PinsDriven readyState := by decide

/-- The longest text. -/
theorem witness_DecodeInvertsEncode : (Instr.setText (List.replicate 255 0x31)).wellFormed = true ∧
    (encode (.setText (List.replicate 255 0x31))).isSome = true := by decide +kernel

theorem witness_EncodeInvertsDecode : decode (.request ⟨0x00000506, [0x332E3231, 0x00000034]⟩) =
    .ok (.setText [0x31, 0x32, 0x2E, 0x33, 0x34]) ∧ decode (.wire 0xCF) = .ok (.addr 15) := by decide

/-- The empty text, and a text that fills its words. -/
theorem witness_LegalRequestsDecode :
    (([] : List Word).length = textWordsOf 0x00000006 ∧ ¬Illegal ⟨0x00000006, []⟩) ∧
    [(0x34333231 : Word)].length = textWordsOf 0x00000406 := by
  refine ⟨⟨by decide, ?_⟩, by decide⟩
  rintro (h | h | ⟨h, -⟩ | ⟨h, -⟩ | ⟨h, -⟩ | ⟨h, -⟩ | ⟨-, k, w, -, hw, -⟩)
  · revert h; decide
  · exact h (by decide)
  · exact h (by decide)
  · revert h; decide
  · exact h (by decide)
  · exact h (by decide)
  · simp at hw

/-- V-E7: a padding lane that is not 0, before INIT. -/
theorem witness_IllegalRequestFaultsBeforeAnyEvent :
    ({ State.reset with port := [0x00000106, 0x00003131, 0x9] } : State).port =
      (0x00000106 : Word) :: ([0x00003131] ++ [0x9]) ∧
    [(0x00003131 : Word)].length = textWordsOf 0x00000106 ∧ Illegal ⟨0x00000106, [0x00003131]⟩ := by
  refine ⟨rfl, by decide, ?_⟩
  exact .inr (.inr (.inr (.inr (.inr (.inr ⟨by decide, 1, 0x00003131, by decide, rfl, by decide⟩)))))

theorem witness_StepRunsDecodedInstruction :
    decodeRequest ⟨0x00000206, [0x00005831]⟩ = .ok (.setText [0x31, 0x58]) ∧
    decodeRequest { readyState with seq := .busy, req := ⟨0x00000103, []⟩ }.req = .ok (.setLed 0 1) ∧
    decodeWire 0x42 = .ok .keyScan := by decide

/-- One text word short of the longest text. -/
theorem witness_IdleBlockWaitsForAWholeRequest :
    opOf 0x0000FF06 = 6 ∧ (List.replicate 63 (0 : Word)).length < ((byteOf 0x0000FF06).toNat + 3) / 4 := by decide

/-- The longest text, whole. -/
theorem witness_EveryRequestRunsToItsEnd :
    Inv (readyWith (0x0000FF06 :: List.replicate 64 0x31313131)) ∧
    textWordsOf 0x0000FF06 ≤ (List.replicate 64 (0x31313131 : Word)).length := ⟨readyWith_inv _, by decide⟩

theorem witness_SendByteShiftsOutLsbFirst : readyState.clk.dir = .out ∧ readyState.dio.dir = .out := by decide

/-- DIO may be an input already. -/
theorem witness_ReceiveByteAssemblesLsbFirst :
    ({ readyState with dio := ⟨.inPu, .x⟩ } : State).clk.dir = .out := by decide

theorem witness_CommandRowsSendOneFrame :
    (∃ l : BitVec 3, Instr.displayOn 7 = .displayOn l ∧ (0x8F : Byte) = 0x88 ||| l.setWidth 8) ∧ PinsDriven readyState :=
  ⟨⟨7, rfl, by decide⟩, ready.2⟩

theorem witness_OpeningRowsLeaveTheFrameOpen :
    (∃ a : RamAddr, Instr.addr 15 = .addr a ∧ (0xCF : Byte) = 0xC0 ||| a.setWidth 8) ∧ PinsDriven readyState :=
  ⟨⟨15, rfl, by decide⟩, ready.2⟩

theorem witness_UndrivenPinIsNeverWritten : State.reset.stb.dir ≠ .out ∧ State.reset.clk.dir ≠ .out ∧
    ({ readyState with dio := ⟨.inPu, .x⟩ } : State).clk.dir = .out ∧
    ({ readyState with dio := ⟨.inPu, .x⟩ } : State).dio.dir ≠ .out := by decide

theorem witness_SendCommandSendsItsByte : readyState.initialized = true ∧ PinsDriven readyState := ready

theorem witness_SendDataWritesItsByte : readyState.initialized = true ∧ PinsDriven readyState := ready

theorem witness_SetLedWritesItsOddAddress : readyState.initialized = true ∧ PinsDriven readyState := ready

theorem witness_RenderCharWritesItsEvenAddress : readyState.initialized = true ∧ PinsDriven readyState := ready

theorem witness_KeyReadsCombineTheSameFourBytes : readyState.initialized = true ∧ PinsDriven readyState := ready

theorem witness_SetDigitWritesSixRows :
    readyState.initialized = true ∧ PinsDriven readyState ∧ lookup readyState.font 0x35 = some 0x6D := by decide

theorem witness_SetDigitOfAnUnknownCodeFaults :
    readyState.initialized = true ∧ lookup readyState.font 0x20 = none := by decide

/-- A text longer than 8 characters, its ninth character unknown (V-T12), and the empty text. -/
theorem witness_SetTextWritesEightRowPlanes :
    allKnown readyState.font (shownChars [0x31, 0x32, 0x33, 0x34, 0x35, 0x36, 0x37, 0x38, 0x39, 0x58]) = true ∧
    allKnown readyState.font (shownChars []) = true ∧ readyState.initialized = true ∧ PinsDriven readyState := by decide

/-- V-T13, and V-T12, whose unknown character is not shown. -/
theorem witness_SetTextOfAnUnknownCodeFaults :
    firstUnknown readyState.font (layout ([0x31, 0x58].filter (fun c => c != dotCode))) = some 0x58 ∧
    allKnown readyState.font (shownChars [0x31, 0x32, 0x33, 0x34, 0x35, 0x36, 0x37, 0x38, 0x39, 0x58]) = true ∧
    readyState.initialized = true ∧ PinsDriven readyState := by decide

theorem witness_GuardedRequestsNeedInit :
    guardedOpcode (.setDigit 0 0x31 false) = some 5 ∧ State.reset.initialized = false := by decide

/-- A request that ends OK, one that faults after a write, one that faults at once. -/
theorem witness_FaultEntryRecordsAndChangesNothingElse :
    (∃ t, exec (.setLed 0 1) readyState = .next t ∧ t.rspStatus = 0) ∧
    (∃ t, exec (.setText [0x31, 0x58]) readyState = .next t ∧ t.rspStatus ≠ 0) ∧
    (∃ t, exec (.reservedAB 0xA) State.reset = .next t ∧ t.rspStatus ≠ 0) :=
  ⟨⟨_, exec_of_ends (.setLed 0 1 ready.1 ready.2), rfl⟩,
    ⟨_, exec_of_ends (.setTextUnknown [0x31, 0x58] 0x58 ready.1 ready.2 (by decide)), (by decide : (1 : BitVec 4) ≠ 0)⟩,
    ⟨_, rfl, (by decide : (2 : BitVec 4) ≠ 0)⟩⟩

theorem witness_OnlyInitWritesTheControlRegisters :
    (∀ b, Instr.setLed 0 1 ≠ .init b) ∧ ∃ t, exec (.setLed 0 1) readyState = .next t :=
  ⟨nofun, _, exec_of_ends (.setLed 0 1 ready.1 ready.2)⟩

theorem witness_NoRequestStopsTheMachine : Inv readyState ∧ isRequest .getButtons = true := ⟨ready_inv, rfl⟩

/-- A dropped dot, so that the diagnostic is counted too. -/
theorem witness_RequestsHaveTheirEventCounts : Inv readyState ∧
    dotIsDropped [0x2E, 0x31, 0x32, 0x33, 0x34, 0x35, 0x36, 0x37, 0x38] = true ∧
    ∃ t, exec (.setText [0x2E, 0x31, 0x32, 0x33, 0x34, 0x35, 0x36, 0x37, 0x38]) readyState = .next t :=
  ⟨ready_inv, by decide, _, exec_of_ends (.setText _ ready.1 ready.2 (by decide))⟩

theorem witness_UnreadRegistersDoNotMatter : (∃ t, exec .getButtons readyState = .next t) ∧
    ∃ t, exec .receiveByte readyState = .next t :=
  ⟨⟨_, exec_of_ends (.getButtons ready.1 ready.2)⟩, _, exec_of_moves (.receiveByte ready.2.2.1)⟩

theorem witness_PinsAreWhatTheTraceMakesOfThem : (∃ t, exec (.init 7) State.reset = .next t) ∧
    ∃ t, exec .keyScan readyState = .next t :=
  ⟨⟨_, exec_of_ends (.init 7)⟩, _, exec_of_moves (.keyScan ready.2)⟩

/-- An idle block with nothing on its port, and one with a request before INIT. -/
theorem witness_StepOnlyAppends : (readyState.resetIn = none ∧ step readyState = .next readyState) ∧
    ∃ t, step (State.reset.withFetchWord 32 0x00000007) = .next t := ⟨⟨rfl, rfl⟩, _, rfl⟩

theorem witness_NoStepWritesTheFont : ∃ t, step (State.reset.withFetchWord 32 0x00000007) = .next t := ⟨_, rfl⟩

theorem witness_OnlyTheFourFrameShapesAreSent : Inv (readyWith [0x0000000A]) ∧ (readyWith [0x0000000A]).resetIn = none ∧
    ∃ t, step (readyWith [0x0000000A]) = .next t := ⟨readyWith_inv _, rfl, _, rfl⟩

theorem witness_StepKeepsTheInvariant : Inv (readyWith [0x0000000A]) ∧ ∃ t, step (readyWith [0x0000000A]) = .next t :=
  ⟨readyWith_inv _, _, rfl⟩

theorem witness_ResetWhenIdle : ({ readyState with resetIn := some 0 } : State).resetIn = some 0 := rfl

/-- A reset in the middle of a key read, 60 of its 130 events done. -/
theorem witness_ResetInsideARequestLeavesNoResponse :
    ∃ u events, ({ readyWith [0x00000007] with resetIn := some 61 } : State).resetIn = some (60 + 1) ∧
      hasWork { readyWith [0x00000007] with resetIn := some 61 } = true ∧
      runNext { readyWith [0x00000007] with resetIn := some 61 } = .next u ∧
      u.trace = ({ readyWith [0x00000007] with resetIn := some 61 } : State).trace ++ events ∧ 60 ≤ events.length := by
  let s : State := { readyWith [] with resetIn := some 61, req := ⟨7, []⟩, seq := .busy }
  refine ⟨_, keyEvents s, rfl, rfl, exec_of_ends (.getButtons (s := s) rfl ⟨rfl, rfl, rfl⟩), ?_, ?_⟩
  · exact onBus_trace (s := moved 32 s) .hi (keyEvents s) .x (receivedFrom s 3)
  · show 60 ≤ (keyFrameEvents _).length
    simp [keyFrameEvents, List.range_succ, sentByte, sentCell, receivedByte, samplesOfByte, receivedCell]

/-- realPos 7 (V-T3), 0 (V-T11), -1 (V-T6), and 3 and 4 where the two halves of the table meet; a text without a dot. -/
theorem witness_DotByteRotatesToItsPosition :
    ([0x31, 0x35, 0x2E].findIdx? (· == dotCode) = some 2 ∧ realPos [0x31, 0x35, 0x2E] 2 = 7) ∧
    ((List.replicate 8 0x2E).findIdx? (· == dotCode) = some 0 ∧ realPos (List.replicate 8 0x2E) 0 = 0) ∧
    ((0x2E :: List.replicate 8 0x31).findIdx? (· == dotCode) = some 0 ∧
      realPos (0x2E :: List.replicate 8 0x31) 0 = -1) ∧
    ([0x2E, 0x31, 0x31, 0x31, 0x31].findIdx? (· == dotCode) = some 0 ∧ realPos [0x2E, 0x31, 0x31, 0x31, 0x31] 0 = 3) ∧
    ([0x2E, 0x31, 0x31, 0x31].findIdx? (· == dotCode) = some 0 ∧ realPos [0x2E, 0x31, 0x31, 0x31] 0 = 4) ∧
    ([0x31, 0x35].findIdx? (· == dotCode) = none ∧ dotCode ∉ [0x31, 0x35]) := by decide

/-- V-T6: a dot and eight digits. -/
theorem witness_DotIsDroppedWhenTheTextIsTooLong : readyState.initialized = true ∧ PinsDriven readyState ∧
    allKnown readyState.font (shownChars [0x2E, 0x31, 0x32, 0x33, 0x34, 0x35, 0x36, 0x37, 0x38]) = true ∧
    dotByte [0x2E, 0x31, 0x32, 0x33, 0x34, 0x35, 0x36, 0x37, 0x38] = .dropped := by decide

/-- A full buffer: the first and the last place, and no place past the text; an empty text: every place a space. -/
theorem witness_LayoutReversesPadsAndSwaps :
    (0 < ((List.replicate 9 0x31).take 8 : List Byte).length ∧ 7 < ((List.replicate 9 0x31).take 8 : List Byte).length) ∧
    ([].take 8 : List Byte).length ≤ 0 := by decide

theorem witness_RotatedRowsAreTheNetPlacement : rowByte fontRef (layout [0x31, 0x32, 0x33, 0x34]) 1 = .ok 0xF0 := by
  decide

theorem witness_ObserverKeepsRamCanonical : chipAfterInit.ram.wf := by decide

theorem witness_RamReadsWhatWasWritten : chipAfterInit.ram.wf ∧ Memory.wf [] ∧ Memory.wf [(0, 1), (15, 2)] := by decide

/-- From reset, and again after it. -/
theorem witness_InitBlanksTheChip :
    ((observeFrom (.start unknownChip) State.reset.trace).frame = none ∧ ∃ t, exec (.init 99) State.reset = .next t) ∧
    ((observeFrom (.start unknownChip) readyState.trace).frame = none ∧ ∃ t, exec (.init 0) readyState = .next t) :=
  ⟨⟨rfl, _, exec_of_ends (.init 99)⟩, rfl, _, exec_of_ends (.init 0)⟩

theorem witness_DisplayWritesReachOneRamByte : Inv readyState ∧ readyState.initialized = true ∧
    (∃ p, Instr.setLed 7 0xFF = .setLed p 0xFF ∧ (15 : RamAddr) = ledAddress p) ∧
    (∃ p x dot, Instr.renderChar 7 0 true = .renderChar p x dot ∧ (14 : RamAddr) = rowAddress p ∧
      (0x80 : Byte) = (x ||| if dot then 0x80 else 0)) :=
  ⟨ready_inv, rfl, ⟨7, rfl, by decide⟩, 7, 0, true, rfl, by decide, by decide⟩

theorem witness_SetDigitReplacesSixRowBytes : Inv readyState ∧ readyState.initialized = true ∧
    lookup readyState.font 0x39 = some 0x6F ∧ (0 : Nat) ≠ (7 : Pos).toNat ∧ (8 : Nat) ≠ (7 : Pos).toNat :=
  ⟨ready_inv, rfl, by decide, by decide, by decide⟩

theorem witness_SetTextShowsTheTextOnTheChip : Inv readyState ∧ readyState.initialized = true ∧
    allKnown readyState.font (shownChars [0x31, 0x20, 0x2E, 0x35]) = true := ⟨ready_inv, rfl, by decide⟩

theorem witness_FaultedSetTextWritesRowPlaneSevenOnly : Inv readyState ∧ readyState.initialized = true ∧
    firstUnknown readyState.font (layout ([0x58, 0x2E, 0x41].filter (fun c => c != dotCode))) = some 0x41 :=
  ⟨ready_inv, rfl, by decide⟩

theorem witness_SendCommandLeavesTheRamAlone : Inv readyState ∧ readyState.initialized = true := ⟨ready_inv, rfl⟩

theorem witness_CommandRowsReachTheChip : Inv readyState ∧ readyState.initialized = true := ⟨ready_inv, rfl⟩

theorem witness_KeyReadsAreRecordedByTheObserver : Inv readyState ∧ readyState.initialized = true := ⟨ready_inv, rfl⟩

theorem witness_RepeatedDisplayWriteIsIdempotent : Inv readyState ∧ readyState.initialized = true ∧ chipAfterInit.ram.wf ∧
    ∃ t u, exec (.sendData 15 0xFF) readyState = .next t ∧ exec (.sendData 15 0xFF) t = .next u :=
  ⟨ready_inv, rfl, by decide, _, _, exec_of_ends (.sendData 15 0xFF ready.1 ready.2),
    exec_of_ends (.sendData 15 0xFF rfl ⟨rfl, rfl, rfl⟩)⟩

end Sys2Proof.Tests
end

section
/-! PROOFS. The reset values of the block (10_state.md R36). -/

namespace Sys2Proof.Machine

/-- R36, R26: right after reset no event has been produced. -/
@[simp] theorem State.reset_trace : State.reset.trace = [] := List.reverse_nil

/-- R36, R22: right after reset no pin is configured, and none is driven. -/
theorem State.reset_pins (p : Pin) : State.reset.pin p = ⟨.unconf, .x⟩ := by
  cases p <;> rfl

/-- Settles O37: the pins by `State.reset_pins`, TRACE by `State.reset_trace`; POWER_ON, INITIALIZED, SEQ, the three
response registers and FAULT_LOG are fields of `State.reset` as R36 writes them. -/
theorem resetValuesAreTheSpecs : Obligations.ResetValuesAreTheSpecs :=
  ⟨State.reset_pins .stb, State.reset_pins .clk, State.reset_pins .dio,
    rfl, rfl, rfl, rfl, rfl, rfl, rfl, State.reset_trace⟩

end Sys2Proof.Machine
end

section
/-! PROOFS. An illegal request (30_encoding.md R89, 60_exceptions.md R172): which requests decode, what an idle block
does with a whole request on its port, and what it does with one that R89 calls illegal. -/

namespace Sys2Proof.Machine

/-- A row that checks a condition and rejects otherwise accepts only when the condition holds. -/
theorem condition_of_ite_ok {P : Prop} [Decidable P] {i j : Instr} {e : Reject}
    (h : (if P then .ok j else .error e : Except Reject Instr) = .ok i) : P := by
  split at h
  · assumption
  · cases h

/-- `onlyByte` accepts only when POS, DOT and ADDR are 0. -/
theorem fields_of_onlyByte {w : Word} {i j : Instr} (h : onlyByte w j = .ok i) :
    posOf w = 0 ∧ dotOf w = false ∧ addrOf w = 0 :=
  condition_of_ite_ok h

/-- `onlyOp` accepts only when every field but OP is 0. -/
theorem fields_of_onlyOp {w : Word} {i j : Instr} (h : onlyOp w j = .ok i) :
    byteOf w = 0 ∧ posOf w = 0 ∧ dotOf w = false ∧ addrOf w = 0 := by
  unfold onlyOp at h
  split at h
  · next byteZero => exact ⟨byteZero, fields_of_onlyByte h⟩
  · cases h

/-- A SET_TEXT that decodes uses no field but BYTE, and its padding lanes are 0 (R86, R89). -/
theorem fields_of_decodeText {r : Request} {i : Instr} (h : decodeText r = .ok i) :
    (posOf r.word = 0 ∧ dotOf r.word = false ∧ addrOf r.word = 0) ∧ ¬ badPadding r := by
  unfold decodeText at h
  split at h
  · cases h
  · dsimp only at h
    split at h
    · next lanesZero => exact ⟨fields_of_onlyByte h, (padding_iff r).1 lanesZero⟩
    · cases h

/-- The decoder accepts a request only through its opcode's row, and a row other than RESERVED only with RSV = 0
(R84, R89). -/
theorem decodeOp_of_decodeRequest {r : Request} {i : Instr} (h : decodeRequest r = .ok i) :
    decodeOp r = .ok i ∧ (0xA ≤ (opOf r.word).toNat ∨ rsvOf r.word = 0) := by
  unfold decodeRequest at h
  split at h
  · next reserved =>
    have opLarge : ∀ o : BitVec 4, (o == 0xA#4 || o == 0xB#4) = true ∨ decide (0xC#4 ≤ o) = true → 0xA ≤ o.toNat := by
      decide
    split at h
    · exact ⟨h, .inl (opLarge _ reserved)⟩
    · cases h
  · split at h
    · cases h
    · next rsvZero =>
      split at h
      · cases h
      · exact ⟨h, .inr (not_not.1 rsvZero)⟩

/-- The opcodes from 0xA on are the RESERVED rows. -/
theorem reserved_of_decodeOp {r : Request} {i : Instr} (h : decodeOp r = .ok i) (hop : 0xA ≤ (opOf r.word).toNat) :
    i = .reservedAB r.word ∨ i = .reservedCF r.word := by
  unfold decodeOp at h
  dsimp only at h
  generalize (opOf r.word).toNat = op at h hop
  match op, hop, h with
  | 10, _, h | 11, _, h => cases h; exact .inl rfl
  | _ + 12, _, h => cases h; exact .inr rfl

/-- Below the RESERVED opcodes and with RSV = 0, a row accepts only what R89 does not call illegal. -/
theorem not_illegal_of_decodeOp {r : Request} {i : Instr} (h : decodeOp r = .ok i) (hop : (opOf r.word).toNat < 0xA)
    (hrsv : rsvOf r.word = 0) : ¬ Illegal r := by
  unfold decodeOp at h
  unfold Illegal
  dsimp only at h ⊢
  generalize (opOf r.word).toNat = op at h hop ⊢
  match op, hop, h with
  | 0, _, h | 1, _, h | 9, _, h =>
    obtain ⟨hpos, hdot, haddr⟩ := fields_of_onlyByte h
    simp [hrsv, hpos, hdot, haddr]
  | 2, _, h =>
    obtain ⟨hpos, hdot⟩ := condition_of_ite_ok h
    simp [hrsv, hpos, hdot]
  | 3, _, h =>
    obtain ⟨hdot, haddr⟩ := condition_of_ite_ok h
    simp [hrsv, hdot, haddr]
  | 4, _, h | 5, _, h =>
    have haddr := condition_of_ite_ok h
    simp [hrsv, haddr]
  | 6, _, h =>
    obtain ⟨⟨hpos, hdot, haddr⟩, hpadding⟩ := fields_of_decodeText h
    simp [hrsv, hpos, hdot, haddr, hpadding]
  | 7, _, h | 8, _, h =>
    obtain ⟨hbyte, hpos, hdot, haddr⟩ := fields_of_onlyOp h
    simp [hrsv, hbyte, hpos, hdot, haddr]

/-- An illegal request that the decoder accepts is one of the RESERVED rows (R89). -/
theorem reserved_of_decode_illegal {r : Request} {i : Instr} (h : decodeRequest r = .ok i) (hill : Illegal r) :
    i = .reservedAB r.word ∨ i = .reservedCF r.word := by
  obtain ⟨hdecode, hrsv⟩ := decodeOp_of_decodeRequest h
  rcases Nat.lt_or_ge (opOf r.word).toNat 0xA with small | large
  · exact absurd hill (not_illegal_of_decodeOp hdecode small (hrsv.resolve_left (by omega)))
  · exact reserved_of_decodeOp hdecode large

/-- A latched illegal request faults at once, with its word as the info, whether the decoder rejects it or it is
a RESERVED row (60_exceptions.md R172, R176). -/
theorem execute_of_illegal {s : State} (hill : Illegal s.req) :
    execute s = .next (fail .illegalRequest s.req.word s) := by
  unfold execute
  split
  · next i hdecode =>
    rcases reserved_of_decode_illegal hdecode hill with rfl | rfl <;> rfl
  · rfl

/-- With no reset due and the transport's queue empty, an idle block takes a whole request off its port and executes
it (10_state.md R30). -/
theorem step_of_whole_request {s : State} {r : Request} {rest : List Word} (hreset : s.resetIn = none)
    (hwire : s.wire = []) (hidle : s.seq = .idle) (hport : s.port = r.word :: (r.text ++ rest))
    (hlen : r.text.length = textWordsOf r.word) :
    step s = execute { s with req := r, port := rest, seq := .busy } := by
  simp [step, runNext, hreset, hwire, hidle, accept_whole hport hlen]

/-- Settles O5: the block accepts the request (`step_of_whole_request`) and takes the fault (`execute_of_illegal`);
`faultedAtOnce_fail` says what that leaves of the state with the request latched. -/
theorem illegalRequestFaultsBeforeAnyEvent : Obligations.IllegalRequestFaultsBeforeAnyEvent := by
  intro s r rest hreset hwire hidle hport hlen hill
  obtain ⟨htrace, hpins, hresponds, hcontrol, hlog, ⟨hreq, hfont, hport', hreset', hwire'⟩, hsamples, htransport⟩ :=
    faultedAtOnce_fail .illegalRequest r.word { s with req := r, port := rest, seq := .busy }
  exact ⟨_, (step_of_whole_request hreset hwire hidle hport hlen).trans (execute_of_illegal hill), htrace, hpins,
    hresponds, hcontrol, hlog, hreq, hport', hfont, hreset'.trans hreset, hwire'.trans hwire, hsamples, htransport⟩

end Sys2Proof.Machine
end

section
/-! PROOFS. INIT (41_command_protocol.md R118 to R123): how it ends, and what its frames make of the chip. -/

namespace Sys2Proof.Machine

/-- The level INIT sends and stores is `min(intensity, 7)` (R118). -/
theorem clampLevel_eq (b : Byte) : clampLevel b = BitVec.ofNat 3 (min b.toNat 7) := rfl

/-- The one way INIT ends appends its events to TRACE (R120, R121). -/
theorem trace_of_exec_init {b : Byte} {s t : State} (h : exec (.init b) s = .next t) :
    t.trace = s.trace ++ initEvents (clampLevel b) := by
  obtain rfl := Host.Outcome.next.inj ((exec_of_ends (.init b)).symm.trans h)
  exact onBus_trace .hi _ .lo 0

/-- Settles O16: INIT has one ending, `Ends.init`; each clause reads a field of it. -/
theorem initCompletesFromEveryState : Obligations.InitCompletesFromEveryState := by
  intro b s
  have ends := exec_of_ends (s := s) (.init b)
  rw [← clampLevel_eq]
  exact ⟨_, ends, trace_of_exec_init ends, rfl, rfl, rfl, ⟨rfl, rfl, rfl⟩, responds_endRequest 0 {} _ rfl, rfl,
    ⟨rfl, rfl, rfl, rfl, rfl⟩, rfl, rfl⟩

/-! ### Data bytes in AUTO mode (20_memory.md R65) -/

/-- PTR at address `k` in AUTO mode: UNKNOWN once it has passed the last of the 16 addresses (R65). -/
def autoPtr (k : Nat) : Option RamAddr := if k < 16 then some (BitVec.ofNat 4 k) else none

/-- The next address in AUTO mode, as the observer counts it. -/
theorem autoPtr_succ {k : Nat} (hk : k < 16) :
    (if BitVec.ofNat 4 k = 15 then none else some (BitVec.ofNat 4 k + 1)) = autoPtr (k + 1) := by
  revert k; decide

/-- In AUTO mode a data byte goes to PTR, and PTR moves on (R65). -/
theorem storeByte_auto {c : Chip} {k : Nat} (hmode : c.mode = some .auto) (hptr : c.ptr = autoPtr k) (hk : k < 16)
    (v : Byte) : storeByte c (some v) = { c with ram := putByte c.ram k v, ptr := autoPtr (k + 1) } := by
  have known : c.ptr = some (BitVec.ofNat 4 k) := hptr.trans (if_pos hk)
  have address : (BitVec.ofNat 4 k).toNat = k := Nat.mod_eq_of_lt hk
  simp only [storeByte, hmode, known, writeByte, address, autoPtr_succ hk]

/-- While MODE and PTR are known, data bytes are stored one after the other (R65). -/
theorem storeBytes_auto_cons {c : Chip} {k : Nat} (hmode : c.mode = some .auto) (hptr : c.ptr = autoPtr k) (hk : k < 16)
    (v : Byte) (rest : List (Option Byte)) : storeBytes c (some v :: rest) =
      storeBytes { c with ram := putByte c.ram k v, ptr := autoPtr (k + 1) } rest := by
  have known : (c.mode.isNone || c.ptr.isNone) = false := by simp [hmode, hptr, autoPtr, hk]
  rw [storeBytes, known, storeByte_auto hmode hptr hk]
  rfl

/-- In AUTO mode `n` equal data bytes fill the `n` addresses from PTR on, and change nothing else but PTR (R65). -/
theorem storeBytes_auto_replicate {c : Chip} {k n : Nat} (hmode : c.mode = some .auto) (hptr : c.ptr = autoPtr k)
    (fits : k + n ≤ 16) (v : Byte) : ∃ m, storeBytes c (List.replicate n (some v)) =
      { c with ram := m, ptr := autoPtr (k + n) } ∧
      ∀ x, readByte m x = if k ≤ x ∧ x < k + n then some v else readByte c.ram x := by
  induction n generalizing c k with
  | zero => exact ⟨c.ram, by simp [storeBytes, ← hptr], fun x => by rw [if_neg (by omega)]⟩
  | succ n ih =>
    obtain ⟨m, stored, reads⟩ := ih (c := { c with ram := putByte c.ram k v, ptr := autoPtr (k + 1) }) (k := k + 1)
      hmode rfl (by omega)
    refine ⟨m, ?_, fun x => ?_⟩
    · rw [List.replicate_succ, storeBytes_auto_cons hmode hptr (by omega), stored, Nat.succ_add_eq_add_succ]
    · rw [reads, readByte_putByte]
      grind

/-! ### INIT's frames on the chip (R122) -/

/-- INIT's clearing frame in AUTO mode makes all 16 bytes 0, and changes nothing else but PTR. -/
theorem applyFrame_clear {c : Chip} (hmode : c.mode = some .auto) :
    ∃ m p, applyFrame ⟨[], (0xC0 :: List.replicate 16 (0 : Byte)).map some, []⟩ c = { c with ram := m, ptr := p } ∧
      ∀ x < 16, readByte m x = some 0 := by
  obtain ⟨m, stored, reads⟩ := storeBytes_auto_replicate (c := { c with ptr := some 0 }) (k := 0) (n := 16)
    hmode rfl (by omega) 0
  refine ⟨m, autoPtr 16, ?_, fun x hx => ?_⟩
  · rw [List.map_cons, List.map_replicate]
    exact (applyFrame_address 0 _ c).trans stored
  · rw [reads, if_pos (by omega)]

/-- INIT's events outside a frame: MODE is AUTO, DISPLAY is on at the level, all 16 bytes are 0, and the rest of the chip
but PTR is as it was. -/
theorem observe_initEvents {o : Observer} (h : o.frame = none) (level : BitVec 3) :
    ∃ m p, Rest (observeFrom o (initEvents level))
        { o.chip with ram := m, ptr := p, mode := some .auto, display := some (true, level) } ∧
      ∀ x < 16, readByte m x = some 0 := by
  have displayed := observe_sentFrame (observe_sentFrame (observe_config h) [0x40]) [0x88 ||| level.setWidth 8]
  simp only [List.map_cons, List.map_nil, applyFrame_modeAuto, applyFrame_displayOn] at displayed
  obtain ⟨m, p, cleared, zero⟩ :=
    applyFrame_clear (c := { o.chip with mode := some .auto, display := some (true, level) }) rfl
  refine ⟨m, p, ?_, zero⟩
  have blank := observe_sentFrame displayed (0xC0 :: List.replicate 16 0)
  rw [cleared] at blank
  simpa only [initEvents, observeFrom_append] using blank

/-- Settles O49: whether a frame is open does not depend on the start chip (`observeFrom_sameWires`), and
`observe_initEvents` says what INIT's events make of the chip then. -/
theorem initBlanksTheChip : Obligations.InitBlanksTheChip := by
  intro b s t s0 closed h
  obtain ⟨-, -, -, sameFrame⟩ :=
    observeFrom_sameWires (o := .start s0) (p := .start unknownChip) ⟨rfl, rfl, rfl, rfl⟩ s.trace
  obtain ⟨m, p, rest, zero⟩ := observe_initEvents (sameFrame.trans closed) (clampLevel b)
  have trace := trace_of_exec_init h
  have chip : observe t.trace s0 = { observe s.trace s0 with
      ram := m, ptr := p, mode := some .auto, display := some (true, clampLevel b) } := by
    rw [observe, trace, observeFrom_append]
    exact rest.chip
  rw [chip, ← clampLevel_eq]
  exact ⟨trace, zero, rfl, rfl, rfl, rfl⟩

end Sys2Proof.Machine
end

section
/-! PROOFS. The rotation (42_display_encoder.md R130, R132), said once as what it does to a bit. -/

namespace Sys2Proof.Machine

/-- Bit q of the rotated byte is bit (q + 4) mod 8 of the byte (R132). -/
theorem getLsbD_rot (x : Byte) {q : Nat} (hq : q < 8) : (rot x).getLsbD q = x.getLsbD ((q + 4) % 8) := by
  rw [rot, rotBy, Config.rotNet, BitVec.getLsbD_or, BitVec.getLsbD_ushiftRight, BitVec.getLsbD_shiftLeft]
  rcases Nat.lt_or_ge q 4 with low | high
  · rw [show (q + 4) % 8 = 4 + q by omega]
    simp [low]
  · rw [show (q + 4) % 8 = q - 4 by omega, BitVec.getLsbD_of_ge x (4 + q) (by omega)]
    simp [hq, Nat.not_lt.2 high]

/-- Rot moves bit q to bit (q + 4) mod 8 (R132). -/
theorem getLsbD_rot_moved (x : Byte) {q : Nat} (hq : q < 8) : (rot x).getLsbD ((q + 4) % 8) = x.getLsbD q := by
  rw [getLsbD_rot x (Nat.mod_lt _ (by omega)), show ((q + 4) % 8 + 4) % 8 = q by omega]

/-- Rot is its own inverse (R132). -/
@[simp] theorem rot_rot (x : Byte) : rot (rot x) = x :=
  BitVec.eq_of_getLsbD_eq fun q hq => by
    rw [getLsbD_rot _ hq, getLsbD_rot_moved x hq]

/-- Rot distributes over OR (R132). -/
theorem rot_or (x y : Byte) : rot (x ||| y) = rot x ||| rot y :=
  BitVec.eq_of_getLsbD_eq fun q hq => by
    simp only [BitVec.getLsbD_or, getLsbD_rot _ hq]

/-- Rot swaps the nibbles (R130). -/
theorem rot_eq_swap (x : Byte) : rot x = x.extractLsb' 0 4 ++ x.extractLsb' 4 4 :=
  BitVec.eq_of_getLsbD_eq fun q hq => by
    rw [getLsbD_rot x hq, BitVec.getLsbD_append]
    rcases Nat.lt_or_ge q 4 with low | high
    · rw [show (q + 4) % 8 = 4 + q by omega]
      simp [low]
    · rw [show (q + 4) % 8 = q - 4 by omega]
      simp [Nat.not_lt.2 high, show q - 4 < 4 by omega]

/-- Settles O42: every law follows from where Rot takes a bit (`getLsbD_rot`). -/
theorem rotIsANibbleSwap : Obligations.RotIsANibbleSwap := fun x y =>
  ⟨rot_eq_swap x, rot_rot x, by simp only [rot_rot], rot_or x y, fun _ hq => getLsbD_rot_moved x hq⟩

end Sys2Proof.Machine
end

section
/-! PROOFS. The layout buffer (42_display_encoder.md R143) and what rotation makes of its rows (R146). -/

namespace Sys2Proof.Machine

/-- The layout buffer before its halves are swapped: the shown characters reversed, then spaces up to eight (R143). -/
def reversedPadded (u : List Byte) : List Byte :=
  (u.take 8).reverse ++ List.replicate (8 - (u.take 8).length) spaceCode

@[simp] theorem length_reversedPadded (u : List Byte) : (reversedPadded u).length = 8 := by
  simp [reversedPadded]

/-- Swapping the halves of eight characters is a rotation by four. -/
theorem layout_eq_rotate (u : List Byte) : layout u = (reversedPadded u).rotate 4 := by
  rw [List.rotate_eq_drop_append_take (by simp)]
  simp only [layout, reversedPadded, Config.displayWidth, List.length_reverse]

@[simp] theorem length_layout (u : List Byte) : (layout u).length = 8 := by
  rw [layout_eq_rotate, List.length_rotate, length_reversedPadded]

/-- Place (m + 4) mod 8 of the buffer is place m before the half swap. -/
theorem layout_getElem? (u : List Byte) {m : Nat} (hm : m < 8) : (layout u)[(m + 4) % 8]? = (reversedPadded u)[m]? := by
  rw [layout_eq_rotate, List.getElem?_rotate (by rw [length_reversedPadded]; omega), length_reversedPadded,
    show ((m + 4) % 8 + 4) % 8 = m by omega]

/-- The k-th of n shown characters stands at n - 1 - k before the half swap. -/
theorem reversedPadded_shown {u : List Byte} {k : Nat} (hk : k < (u.take 8).length) :
    (reversedPadded u)[(u.take 8).length - 1 - k]? = u[k]? := by
  rw [reversedPadded, List.getElem?_append_left (by rw [List.length_reverse]; omega),
    List.getElem?_reverse (by omega), show (u.take 8).length - 1 - ((u.take 8).length - 1 - k) = k by omega]
  exact List.getElem?_take_of_lt (by simp at hk; omega)

/-- Past the shown characters there are spaces. -/
theorem reversedPadded_space {u : List Byte} {m : Nat} (hm : m < 8) (hu : (u.take 8).length ≤ m) :
    (reversedPadded u)[m]? = some spaceCode := by
  rw [reversedPadded, List.getElem?_append_right (by rwa [List.length_reverse]), List.length_reverse,
    List.getElem?_replicate_of_lt (by omega)]

/-- Settles O45: the buffer is the reversed and padded text (`reversedPadded`) rotated by four places. -/
theorem layoutReversesPadsAndSwaps : Obligations.LayoutReversesPadsAndSwaps := by
  intro u
  refine ⟨length_layout u, fun k hk => ?_, fun m hm hu => ?_⟩
  · have short : (u.take 8).length ≤ 8 := List.length_take_le 8 u
    rw [layout_getElem? u (by omega), reversedPadded_shown hk]
  · rw [layout_getElem? u hm, reversedPadded_space hm hu]

/-- A space contributes no bit to a row (R144). -/
@[simp] theorem bitAt_space (font : List (Byte × Byte)) (r : Nat) : bitAt font r spaceCode = false := by
  simp [bitAt]

/-- The bits of the reversed and padded text are the shown characters' bits reversed, then zeros. -/
theorem map_bitAt_reversedPadded (font : List (Byte × Byte)) (r : Nat) (u : List Byte) :
    (reversedPadded u).map (bitAt font r) = ((u.take 8).map (bitAt font r)).reverse ++
      List.replicate (8 - ((u.take 8).map (bitAt font r)).length) false := by
  simp only [reversedPadded, List.map_append, List.map_reverse, List.map_replicate, bitAt_space, List.length_map]

/-- Rotation undoes the half swap: a text's row is written in the net placement of its shown characters (R146). -/
theorem rot_textRow (font : List (Byte × Byte)) (t : List Byte) (r : Nat) :
    rot (textRow font t r) = placedRow font (shownChars t) r := by
  rw [placedRow_bits, textRow, layout_eq_rotate, List.rotate_eq_drop_append_take (by simp), List.map_append,
    List.map_drop, List.map_take]
  have placed := bits_layout ((shownChars t).map (bitAt font r)) (by simp [shownChars]) _
    (map_bitAt_reversedPadded font r (removeDots t))
  rwa [List.length_map] at placed

/-- SET_TEXT's seven glyph rows as the claims write them (R140, R146). -/
theorem glyphEvents_eq (font : List (Byte × Byte)) (t : List Byte) : glyphEvents font t = textRowEvents font t := by
  simp only [glyphEvents, textRowEvents, rot_textRow]

end Sys2Proof.Machine
end

section
/-! PROOFS. SET_TEXT on the wires: a dropped dot (42_display_encoder.md R142) and an unknown character (R145). -/

namespace Sys2Proof.Machine

/-- The dot is dropped exactly when its position is negative (R142). -/
theorem dotByte_dropped_iff (t : List Byte) :
    dotByte t = .dropped ↔ ∃ d, t.findIdx? (· == dotCode) = some d ∧ realPos t d < 0 := by
  cases hd : t.findIdx? (· == dotCode) with
  | none => simp [dotByte, dotByteOn, hd]
  | some d =>
    obtain ⟨-, dropped⟩ := dotByteAt_cases (realPos t d) (realPos_le hd)
    simp [dotByte_some hd, dropped]

/-- The dot position is negative exactly when the text is longer than eight characters past the dot (R142). -/
theorem realPos_neg_iff (t : List Byte) (d : Nat) : realPos t d < 0 ↔ 8 + d < t.length := by
  unfold realPos
  omega

/-- The diagnostic says that the dot is dropped (R142). -/
theorem dotIsDropped_iff (t : List Byte) : dotIsDropped t = true ↔ dotByte t = .dropped := by
  rw [← (dotPlane_eq t).2, decide_eq_true_iff]

/-- A dropped dot leaves row-plane 7 zero (R142). -/
theorem dotPlane_of_dropped {t : List Byte} (h : dotByte t = .dropped) : dotPlane t = 0 := by
  rw [← (dotPlane_eq t).1, h]
  decide

/-- With a dropped dot SET_TEXT begins with the diagnostic and a zero row-plane 7 (R142). -/
theorem textStartEvents_of_dropped {t : List Byte} (h : dotByte t = .dropped) :
    textStartEvents t = .dotDropped :: writeFrames 14 0 := by
  rw [textStartEvents, if_pos ((dotIsDropped_iff t).2 h), dotPlane_of_dropped h]
  rfl

/-- A completed request has appended its events (10_state.md R26). -/
@[simp] theorem completed_trace (e : List Event) (d : Level) (v : Byte) (r : Reply) (s : State) :
    (completed e d v r s).trace = s.trace ++ e :=
  onBus_trace .hi e d v

/-- SET_TEXT of known characters completes after its start and its seven rows. -/
theorem exec_setText_known {x : List Byte} {s : State} (on : s.initialized = true) (hp : PinsDriven s)
    (hk : allKnown s.font (shownChars x) = true) :
    ∃ t, exec (.setText x) s = .next t ∧ t.rspStatus = 0 ∧ t.rspDiag = dotIsDropped x ∧
      t.trace = s.trace ++ (textStartEvents x ++ textRowEvents s.font x) := by
  refine ⟨_, exec_of_ends (.setText x on hp hk), rfl, rfl, ?_⟩
  rw [completed_trace, glyphEvents_eq]

/-- Settles O44: `dotByte_dropped_iff` says when the dot is dropped, `exec_setText_known` how the request ends, and
`textStartEvents_of_dropped` what it begins with. -/
theorem dotIsDroppedWhenTheTextIsTooLong : Obligations.DotIsDroppedWhenTheTextIsTooLong := by
  have dropped (t : List Byte) :
      dotByte t = .dropped ↔ ∃ d, t.findIdx? (· == dotCode) = some d ∧ 8 + d < t.length := by
    simp only [dotByte_dropped_iff, realPos_neg_iff]
  refine ⟨dropped, fun t h => ?_, fun x s on hp hk h => ?_⟩
  · obtain ⟨d, -, long⟩ := (dropped t).1 h
    omega
  · obtain ⟨t, run, status, diag, trace⟩ := exec_setText_known on hp hk
    rw [textStartEvents_of_dropped h] at trace
    exact ⟨t, run, diag.trans ((dotIsDropped_iff x).2 h), status, trace⟩

/-- Settles O23: an unknown shown character ends the request as `Ends.setTextUnknown` says, known ones as
`exec_setText_known` does. -/
theorem setTextOfAnUnknownCodeFaults : Obligations.SetTextOfAnUnknownCodeFaults := by
  refine ⟨fun x c s on hp hc => ?_, fun x s on hp hk => ?_⟩
  · exact ⟨_, exec_of_ends (.setTextUnknown x c on hp hc), by rw [fail_trace, onBus_trace], ⟨rfl, rfl, rfl⟩,
      responds_endRequest 1 {} _ rfl, ⟨rfl, rfl, rfl⟩, rfl, ⟨rfl, rfl, rfl, rfl, rfl⟩, rfl, rfl⟩
  · obtain ⟨t, run, status, -, -⟩ := exec_setText_known on hp hk
    exact ⟨t, run, status⟩

end Sys2Proof.Machine
end

section
/-! PROOFS. SET_DIGIT and SET_TEXT on the chip, as the reference observer sees it (42_display_encoder.md R138, R146,
R148). -/

namespace Sys2Proof.Machine

/-! ### From an initialized state that meets the invariant -/

/-- Once initialized, the block drives its pins (10_state.md R23). -/
theorem Inv.pinsDriven {s : State} (h : Inv s) (on : s.initialized = true) : PinsDriven s := by
  obtain ⟨l, hstb, hclk, hdio⟩ := h.atRest on
  exact ⟨by rw [hstb], by rw [hclk], by rw [hdio]⟩

/-- Once initialized, the observer stands between frames, whatever the chip held at the start. -/
theorem Inv.rest {s : State} (h : Inv s) (on : s.initialized = true) (s0 : Chip) :
    Rest (observeFrom (.start s0) s.trace) (observe s.trace s0) := by
  obtain ⟨-, -, hdio⟩ := h.pinsDriven on
  exact rest_of_traceAtRest h.traceAtRest hdio s0

/-- The observer sees appended events on the chip it has made of the trace before them. -/
theorem observe_append (e f : List Event) (s0 : Chip) :
    observe (e ++ f) s0 = (observeFrom (observeFrom (.start s0) e) f).chip := by
  rw [observe, observeFrom_append]

/-! ### Row bytes -/

/-- The chip after the row bytes `d 0` to `d (n - 1)` are written to the even addresses from 0 on. -/
def chipRows (d : Nat → Byte) (n : Nat) (c : Chip) : Chip :=
  (List.range n).foldl (fun c r => chipWrite (BitVec.ofNat 4 (2 * r)) (d r) c) c

/-- The row writes are seen as `chipRows` says. -/
theorem observe_rows {o : Observer} {c : Chip} (h : Rest o c) (d : Nat → Byte) (n : Nat) :
    Rest (observeFrom o ((List.range n).flatMap fun r => writeFrames (BitVec.ofNat 4 (2 * r)) (d r))) (chipRows d n c) :=
  observe_writes h (fun r => BitVec.ofNat 4 (2 * r)) d (List.range n)

/-- A write of the block puts its byte at its address, and leaves the others (20_memory.md R65). -/
theorem readByte_chipWrite (a : RamAddr) (d : Byte) (c : Chip) (x : Nat) :
    readByte (chipWrite a d c).ram x = if x = a.toNat then some d else readByte c.ram x :=
  readByte_putByte c.ram a.toNat x d

/-- Row writes put `d r` at address `2 * r` for each row written, and leave the other addresses. -/
theorem readByte_chipRows (d : Nat → Byte) {n : Nat} (hn : n ≤ 8) (c : Chip) (x : Nat) :
    readByte (chipRows d n c).ram x = if x < 2 * n ∧ x % 2 = 0 then some (d (x / 2)) else readByte c.ram x := by
  induction n with
  | zero => rfl
  | succ n ih =>
    have last : chipRows d (n + 1) c = chipWrite (BitVec.ofNat 4 (2 * n)) (d n) (chipRows d n c) := by
      simp [chipRows, List.range_succ]
    have address : (BitVec.ofNat 4 (2 * n)).toNat = 2 * n := Nat.mod_eq_of_lt (by omega)
    rw [last, readByte_chipWrite, address, ih (by omega)]
    rcases eq_or_ne x (2 * n) with rfl | other
    · rw [if_pos rfl, if_pos (by omega), Nat.mul_div_cancel_left n (by omega)]
    · rw [if_neg other]
      exact if_congr (by omega) rfl rfl

/-! ### SET_DIGIT -/

/-- A bit set at a place of a byte is at that place and at no other. -/
theorem getLsbD_bitAtPlace (b : Bool) {n : Nat} (hn : n < 8) (q : Nat) :
    (if b then 1#8 <<< n else 0).getLsbD q = (b && q == n) := by
  cases b with
  | false => simp
  | true =>
    rw [if_pos rfl, BitVec.getLsbD_shiftLeft, BitVec.getLsbD_one]
    grind

/-- A row byte of SET_DIGIT has bit r of the pattern at the position, the dot at bit 7, and no other bit (R137). -/
theorem getLsbD_digitByte (pattern : Byte) (r : Nat) (p : Pos) (dot : Bool) (q : Nat) :
    (digitByte pattern r p dot).getLsbD q = (pattern.getLsbD r && q == p.toNat || dot && q == 7) := by
  rw [digitByte, BitVec.getLsbD_or, getLsbD_bitAtPlace _ p.isLt]
  exact congrArg _ (getLsbD_bitAtPlace dot (n := 7) (by omega) q)

/-- The lowest n bits of a byte are the sum of their powers of two. -/
theorem sum_bits (x : Byte) (n : Nat) :
    ((List.range n).map fun r => if x.getLsbD r then 2 ^ r else 0).sum = (x.extractLsb' 0 n).toNat := by
  rw [BitVec.extractLsb'_toNat, Nat.shiftRight_zero]
  induction n with
  | zero => simp [Nat.mod_one]
  | succ n ih =>
    rw [List.range_succ, List.map_append, List.sum_append, ih, Nat.mod_pow_succ, ← Nat.toNat_testBit, BitVec.testBit_toNat]
    cases h : x.getLsbD n <;> simp [h]

/-- Settles O51: the six writes on the chip (`readByte_chipRows`), and the bits of a row byte (`getLsbD_digitByte`). -/
theorem setDigitReplacesSixRowBytes : Obligations.SetDigitReplacesSixRowBytes := by
  refine ⟨fun p c pattern dot s s0 inv on hc => ?_, fun pattern p dot r q hq => ?_, fun pattern p => ?_⟩
  · refine ⟨_, exec_of_ends (.setDigit p c pattern dot on (inv.pinsDriven on) hc), fun x => ?_⟩
    rw [completed_trace, observe_append, digitEvents,
      (observe_rows (inv.rest on s0) (fun r => digitByte pattern r p dot) 6).chip, readByte_chipRows _ (by omega)]
  · rw [getLsbD_digitByte, beq_false_of_ne hq, Bool.and_false, Bool.false_or]
  · rw [← sum_bits]
    simp [getLsbD_digitByte]

/-! ### SET_TEXT -/

/-- SET_TEXT's start writes row-plane 7; its diagnostic is nothing to the chip (R140, R142). -/
theorem observe_textStart {o : Observer} {c : Chip} (h : Rest o c) (t : List Byte) :
    Rest (observeFrom o (textStartEvents t)) (chipWrite 14 (dotPlane t) c) := by
  unfold textStartEvents
  split
  · rw [observeFrom_append]
    exact observe_writeFrames (observe_diagnostic h) _ _
  · exact observe_writeFrames h _ _

/-- Settles O52: the row-plane 7 write (`observe_textStart`), then the seven rows (`observe_rows`), which do not reach
address 14. -/
theorem setTextShowsTheTextOnTheChip : Obligations.SetTextShowsTheTextOnTheChip := by
  intro x s s0 inv on hk
  obtain ⟨t, run, -, -, trace⟩ := exec_setText_known on (inv.pinsDriven on) hk
  refine ⟨t, run, fun a => ?_⟩
  have rows := observe_rows (observe_textStart (inv.rest on s0) x) (placedRow s.font (shownChars x)) 7
  rw [← observeFrom_append] at rows
  rw [trace, observe_append, textRowEvents, rows.chip, readByte_chipRows _ (by omega), readByte_chipWrite]
  rcases eq_or_ne a 14 with rfl | other
  · simp
  · simp [other]

end Sys2Proof.Machine
end

section
/-! PROOFS. The key reads (43_key_scanner.md R160 to R163). -/

namespace Sys2Proof.Machine

/-! ### The base-256 number as an OR -/

/-- A multiple of `2 ^ n` added to a word with no bit from place n on carries nothing: the sum is an OR. -/
theorem add_mul_twoPow_eq_or {acc : Word} {n : Nat} (low : ∀ i ≥ n, acc.getLsbD i = false) (x : Word) :
    acc + x * BitVec.twoPow 32 n = acc ||| x <<< n := by
  rw [BitVec.mul_twoPow_eq_shiftLeft]
  refine BitVec.add_eq_or_of_and_eq_zero _ _ (BitVec.eq_of_getLsbD_eq fun i _ => ?_)
  rw [BitVec.getLsbD_and, BitVec.getLsbD_shiftLeft]
  rcases Nat.lt_or_ge i n with below | above
  · simp [below]
  · simp [low i above]

/-- A byte shifted left by n has no bit from place `n + 8` on. -/
theorem getLsbD_shiftedByte (k : Byte) {n i : Nat} (h : n + 8 ≤ i) : (k.setWidth 32 <<< n).getLsbD i = false := by
  simp [BitVec.getLsbD_of_ge k (i - n) (by omega)]

/-- The base-256 number of four bytes is their OR, each at its own eight places (R162, R163). -/
theorem combineConcat_eq_or (k0 k1 k2 k3 : Byte) : combineConcat k0 k1 k2 k3 =
    k0.setWidth 32 ||| k1.setWidth 32 <<< 8 ||| k2.setWidth 32 <<< 16 ||| k3.setWidth 32 <<< 24 := by
  have one (i : Nat) (h : i ≥ 8) : (k0.setWidth 32).getLsbD i = false := by
    simpa using getLsbD_shiftedByte k0 (n := 0) (by omega)
  have two (i : Nat) (h : i ≥ 16) : (k0.setWidth 32 ||| k1.setWidth 32 <<< 8).getLsbD i = false := by
    rw [BitVec.getLsbD_or, one i (by omega), getLsbD_shiftedByte k1 (by omega), Bool.or_self]
  have three (i : Nat) (h : i ≥ 24) :
      (k0.setWidth 32 ||| k1.setWidth 32 <<< 8 ||| k2.setWidth 32 <<< 16).getLsbD i = false := by
    rw [BitVec.getLsbD_or, two i (by omega), getLsbD_shiftedByte k2 (by omega), Bool.or_self]
  calc combineConcat k0 k1 k2 k3
      = k0.setWidth 32 + k1.setWidth 32 * BitVec.twoPow 32 8 + k2.setWidth 32 * BitVec.twoPow 32 16 +
          k3.setWidth 32 * BitVec.twoPow 32 24 := rfl
    _ = _ := by rw [add_mul_twoPow_eq_or one, add_mul_twoPow_eq_or two, add_mul_twoPow_eq_or three]

/-! ### The key reads as requests -/

/-- The end of a key read under any combination of its four bytes: 32 samples taken, the frame over them (R160), the
combined bytes as the result, DIO at X, and the rest as it was. -/
theorem completed_keyRead (combine : Byte → Byte → Byte → Byte → Word) (s : State) :
    SamplesTaken 32 s (completed (keyEvents s) .x (receivedFrom s 3) (keyReply combine s) (moved 32 s)) ∧
    Completed (keyEvents s) .x (keyReply combine s).result false s
      (completed (keyEvents s) .x (receivedFrom s 3) (keyReply combine s) (moved 32 s)) :=
  ⟨⟨rfl, rfl⟩, completed_onBus (s := moved 32 s) (keyEvents s) .x (receivedFrom s 3) (keyReply combine s)⟩

/-- Settles O24: both reads end as `completed_keyRead` says; GET_BUTTONS64's sum is the OR by `combineConcat_eq_or`. -/
theorem keyReadsCombineTheSameFourBytes : Obligations.KeyReadsCombineTheSameFourBytes := by
  intro s on hp
  refine ⟨⟨_, exec_of_ends (.getButtons on hp), completed_keyRead combineOverlap s⟩,
    ⟨_, exec_of_ends (.getButtons64 on hp), ?_⟩⟩
  rw [← combineConcat_eq_or]
  exact completed_keyRead combineConcat s

end Sys2Proof.Machine
end

section
/-! PROOFS. The NOT_INITIALIZED fault (60_exceptions.md R173). -/

namespace Sys2Proof.Machine

/-- Settles O27: before INIT a guarded request has one ending, `Ends.notReady`, and `faultedAtOnce_fail` says what that
fault leaves of the state; INIT and ROTATE_BITS have one ending each from every state, with status OK. -/
theorem guardedRequestsNeedInit : Obligations.GuardedRequestsNeedInit := by
  refine ⟨fun i op s guarded off => ?_, fun b s => ?_, fun x s => ?_⟩
  · exact ⟨_, exec_of_ends (.notReady guarded off), faultedAtOnce_fail .notInitialized (op.setWidth 32) s⟩
  · exact ⟨_, exec_of_ends (.init b), rfl⟩
  · exact ⟨_, exec_of_ends (.rotateBits x), rfl⟩

end Sys2Proof.Machine
end

section
/-! PROOFS. The encoding round trip (30_encoding.md section 2, section 4): decode after encode, encode after decode, and
which requests decode. -/

namespace Sys2Proof.Machine

/-! ### Decoding what was encoded -/

/-- Every instruction's encoding decodes to it, by the law of its constructor. -/
theorem decode_encode (i : Instr) : Laws.Encoding.Statement i := by
  cases i with
  | init b => exact Laws.Encoding.init b
  | sendCommand c => exact Laws.Encoding.sendCommand c
  | sendData a d => exact Laws.Encoding.sendData a d
  | setLed p c => exact Laws.Encoding.setLed p c
  | renderChar p x dot => exact Laws.Encoding.renderChar p x dot
  | setDigit p c dot => exact Laws.Encoding.setDigit p c dot
  | setText t => exact Laws.Encoding.setText t
  | getButtons => exact Laws.Encoding.getButtons
  | getButtons64 => exact Laws.Encoding.getButtons64
  | rotateBits x => exact Laws.Encoding.rotateBits x
  | reservedAB w => exact Laws.Encoding.reservedAB w
  | reservedCF w => exact Laws.Encoding.reservedCF w
  | sendByte v => exact Laws.Encoding.sendByte v
  | receiveByte => exact Laws.Encoding.receiveByte
  | modeAuto => exact Laws.Encoding.modeAuto
  | modeFixed => exact Laws.Encoding.modeFixed
  | keyScan => exact Laws.Encoding.keyScan
  | displayOn l => exact Laws.Encoding.displayOn l
  | addr a => exact Laws.Encoding.addr a

/-- Settles O2, constructor by constructor (`decode_encode`). -/
theorem decodeInvertsEncode : Obligations.DecodeInvertsEncode :=
  fun i c wellFormed encoded => decode_encode i wellFormed c encoded

/-! ### Encoding what was decoded: one-word requests -/

/-- A row that checks a condition and rejects otherwise accepts nothing but its own instruction. -/
theorem eq_of_ite_ok {P : Prop} [Decidable P] {i j : Instr} {e : Reject}
    (h : (if P then .ok j else .error e : Except Reject Instr) = .ok i) : j = i := by
  split at h
  · exact Except.ok.inj h
  · cases h

theorem eq_of_onlyByte {w : Word} {i j : Instr} (h : onlyByte w j = .ok i) : j = i :=
  eq_of_ite_ok h

theorem eq_of_onlyOp {w : Word} {i j : Instr} (h : onlyOp w j = .ok i) : j = i := by
  unfold onlyOp at h
  split at h
  · exact eq_of_onlyByte h
  · cases h

/-- A word is the request word of its fields when RSV is 0 and it has no text word (R84). -/
theorem oneWord_fields {r : Request} (hrsv : rsvOf r.word = 0) (htext : r.text = []) :
    oneWord (opOf r.word) (posOf r.word) (dotOf r.word) (byteOf r.word) (addrOf r.word) = some (.request r) := by
  obtain ⟨w, t⟩ := r
  obtain rfl : t = [] := htext
  rw [oneWord, requestWord_fields w hrsv]

/-- A field of four bits is the bit vector of its value. -/
theorem op_of_toNat {w : Word} {n : Nat} (h : (opOf w).toNat = n) : opOf w = BitVec.ofNat 4 n := by
  rw [← h, BitVec.ofNat_toNat, BitVec.setWidth_eq]

/-- A one-word row below the RESERVED opcodes is encoded as the word it was decoded from (R84, R89). -/
theorem encode_of_decodeOp {r : Request} {i : Instr} (h : decodeOp r = .ok i) (hop : (opOf r.word).toNat < 0xA)
    (hsix : (opOf r.word).toNat ≠ 6) (hrsv : rsvOf r.word = 0) (htext : r.text = []) :
    i.wellFormed = true ∧ encode i = some (.request r) := by
  rw [← oneWord_fields hrsv htext]
  unfold decodeOp at h
  dsimp only at h
  generalize hn : (opOf r.word).toNat = n at h hop hsix
  rw [op_of_toNat hn]
  match n, hop, hsix, h with
  | 0, _, _, h | 1, _, _, h | 9, _, _, h =>
    obtain ⟨hpos, hdot, haddr⟩ := fields_of_onlyByte h
    rw [← eq_of_onlyByte h, hpos, hdot, haddr]
    exact ⟨rfl, rfl⟩
  | 2, _, _, h =>
    obtain ⟨hpos, hdot⟩ := condition_of_ite_ok h
    rw [← eq_of_ite_ok h, hpos, hdot]
    exact ⟨rfl, rfl⟩
  | 3, _, _, h =>
    obtain ⟨hdot, haddr⟩ := condition_of_ite_ok h
    rw [← eq_of_ite_ok h, hdot, haddr]
    exact ⟨rfl, rfl⟩
  | 4, _, _, h | 5, _, _, h =>
    rw [← eq_of_ite_ok h, condition_of_ite_ok h]
    exact ⟨rfl, rfl⟩
  | 7, _, _, h | 8, _, _, h =>
    obtain ⟨hbyte, hpos, hdot, haddr⟩ := fields_of_onlyOp h
    rw [← eq_of_onlyOp h, hbyte, hpos, hdot, haddr]
    exact ⟨rfl, rfl⟩

/-! ### Encoding what was decoded: texts -/

/-- Packing the first `n` lanes of `ceil(n / 4)` words gives the words back when the lanes past `n` are 0 (R86). -/
theorem packText_take_lanes {words : List Word} {n : Nat} (hlen : words.length = (n + 3) / 4)
    (padding : ∀ b ∈ (words.flatMap lanesOf).drop n, b = 0) :
    packText ((words.flatMap lanesOf).take n) = words := by
  induction words generalizing n with
  | nil =>
    rw [List.flatMap_nil, List.take_nil]
    rfl
  | cons w words ih =>
    rw [List.length_cons] at hlen
    have word := wordOfLanes_lanesOf w
    rcases Nat.lt_or_ge n 4 with short | long
    · obtain rfl : words = [] := List.eq_nil_of_length_eq_zero (by omega)
      obtain rfl | rfl | rfl : n = 1 ∨ n = 2 ∨ n = 3 := by omega
      all_goals
        simp only [List.flatMap_cons, List.flatMap_nil, List.append_nil, lanesOf, List.drop_succ_cons, List.drop_zero,
          List.mem_cons, List.not_mem_nil, or_false, forall_eq_or_imp, forall_eq] at padding
        simp only [padding] at word
        simpa [lanesOf, packText] using word
    · obtain ⟨m, rfl⟩ := Nat.exists_eq_add_of_le' long
      rw [List.flatMap_cons] at padding ⊢
      simp only [lanesOf, List.cons_append, List.nil_append, List.drop_succ_cons] at padding
      simp only [lanesOf, List.cons_append, List.nil_append, List.take_succ_cons, packText, word,
        ih (n := m) (by omega) padding]

/-- The lanes of some words are four each. -/
theorem length_flatMap_lanesOf (words : List Word) : (words.flatMap lanesOf).length = 4 * words.length := by
  simp [List.length_flatMap, lanesOf, Nat.mul_comm]

/-- SET_TEXT is encoded as the request it was decoded from (R86, R89). -/
theorem encode_of_decodeText {r : Request} {i : Instr} (h : decodeText r = .ok i) (hop : (opOf r.word).toNat = 6)
    (hrsv : rsvOf r.word = 0) : i.wellFormed = true ∧ encode i = some (.request r) := by
  obtain ⟨⟨hpos, hdot, haddr⟩, hpadding⟩ := fields_of_decodeText h
  have zeros := (padding_iff r).2 hpadding
  have op := op_of_toNat hop
  unfold decodeText at h
  split at h
  · cases h
  next hcount =>
  dsimp only at h
  rw [if_pos zeros] at h
  have count : r.text.length = ((byteOf r.word).toNat + 3) / 4 := by
    rw [not_not.1 hcount, textWordsOf, if_pos op]
  have length : ((r.text.flatMap lanesOf).take (byteOf r.word).toNat).length = (byteOf r.word).toNat := by
    rw [List.length_take, length_flatMap_lanesOf]
    omega
  have packed := packText_take_lanes count (fun b hb => by simpa using List.all_eq_true.1 zeros b hb)
  have word := requestWord_fields r.word hrsv
  rw [op, hpos, hdot, haddr] at word
  rw [← eq_of_onlyByte h]
  refine ⟨?_, ?_⟩
  · have bound := (byteOf r.word).isLt
    simp only [Instr.wellFormed, textFits, length, Config.maxTextLen, decide_eq_true_eq]
    omega
  · simp only [encode, length, packed, BitVec.ofNat_toNat, BitVec.setWidth_eq]
    exact congrArg (fun w => some (Code.request ⟨w, r.text⟩)) word

/-! ### Encoding what was decoded: every code -/

/-- A RESERVED row is decided by OP alone, and carries its word (R89). -/
theorem wellFormed_of_reserved {r : Request} {i : Instr} (h : decodeOp r = .ok i) (hop : 0xA ≤ (opOf r.word).toNat) :
    i.wellFormed = true ∧ encode i = some (.request ⟨r.word, []⟩) := by
  have ab : ∀ o : BitVec 4, o.toNat = 10 ∨ o.toNat = 11 → (o == 0xA#4 || o == 0xB#4) = true := by decide
  have cf : ∀ o : BitVec 4, 12 ≤ o.toNat → decide (0xC#4 ≤ o) = true := by decide
  unfold decodeOp at h
  dsimp only at h
  generalize hn : (opOf r.word).toNat = n at h hop
  match n, hop, h with
  | 10, _, h => cases h; exact ⟨ab _ (.inl hn), rfl⟩
  | 11, _, h => cases h; exact ⟨ab _ (.inr hn), rfl⟩
  | _ + 12, _, h => cases h; exact ⟨cf _ (by omega), rfl⟩

/-- Only SET_TEXT has text words (R91). -/
theorem text_nil_of_op {r : Request} (hlen : r.text.length = textWordsOf r.word) (hop : (opOf r.word).toNat ≠ 6) :
    r.text = [] := by
  have other : opOf r.word ≠ 6#4 := fun h => hop (by rw [h]; rfl)
  rw [textWordsOf, if_neg other] at hlen
  exact List.eq_nil_of_length_eq_zero hlen

/-- A request that decodes is the encoding of a well-formed instruction. -/
theorem encode_of_decodeRequest {r : Request} {i : Instr} (h : decodeRequest r = .ok i) :
    i.wellFormed = true ∧ encode i = some (.request r) := by
  have hlen := length_of_decode h
  obtain ⟨hdecode, hrsv⟩ := decodeOp_of_decodeRequest h
  rcases Nat.lt_or_ge (opOf r.word).toNat 0xA with small | large
  · have hrsv : rsvOf r.word = 0 := hrsv.resolve_left (by omega)
    by_cases hop : (opOf r.word).toNat = 6
    · refine encode_of_decodeText ?_ hop hrsv
      simpa only [decodeOp, hop] using hdecode
    · exact encode_of_decodeOp hdecode small hop hrsv (text_nil_of_op hlen hop)
  · have whole : (⟨r.word, []⟩ : Request) = r := by rw [← text_nil_of_op hlen (by omega)]
    rw [← whole]
    exact wellFormed_of_reserved hdecode large

/-- The bits of DISPLAY_ON and ADDR that are not operand fix the rest of their byte (R76, R77). -/
theorem wireBytes_of_fields : ∀ b : Byte,
    (b.extractLsb' 3 5 = 0b10001#5 → displayOnByte (b.extractLsb' 0 3) = b) ∧
    (b.extractLsb' 4 4 = 0b1100#4 → addrByte (b.extractLsb' 0 4) = b) := by
  decide

/-- A wire command byte that decodes is the encoding of a well-formed instruction (R73 to R77). -/
theorem encode_of_decodeWire {b : Byte} {i : Instr} (h : decodeWire b = .ok i) :
    i.wellFormed = true ∧ encode i = some (.wire b) := by
  obtain ⟨display, address⟩ := wireBytes_of_fields b
  unfold decodeWire at h
  split at h
  · next hb => cases h; exact ⟨rfl, by rw [hb]; rfl⟩
  split at h
  · next hb => cases h; exact ⟨rfl, by rw [hb]; rfl⟩
  split at h
  · next hb => cases h; exact ⟨rfl, by rw [hb]; rfl⟩
  split at h
  · next hb => cases h; exact ⟨rfl, by rw [encode, display hb]⟩
  split at h
  · next hb => cases h; exact ⟨rfl, by rw [encode, address hb]⟩
  · cases h

/-- Settles O3: requests by `encode_of_decodeRequest`, wire command bytes by `encode_of_decodeWire`. -/
theorem encodeInvertsDecode : Obligations.EncodeInvertsDecode := by
  intro c i h
  cases c with
  | request r => exact encode_of_decodeRequest h
  | wire b => exact encode_of_decodeWire h

/-! ### Which requests decode -/

/-- Below the RESERVED opcodes, with RSV = 0 and the right number of text words, the opcode's row decides (R84, R91). -/
theorem decodeRequest_eq_decodeOp {r : Request} (hop : (opOf r.word).toNat < 0xA) (hrsv : rsvOf r.word = 0)
    (hlen : r.text.length = textWordsOf r.word) : decodeRequest r = decodeOp r := by
  have small : ∀ o : BitVec 4, o.toNat < 0xA → ¬((o == 0xA#4 || o == 0xB#4) = true ∨ decide (0xC#4 ≤ o) = true) := by
    decide
  have notReserved : ¬(isReservedAB r.word = true ∨ isReservedCF r.word = true) := small _ hop
  have text : ¬(opOf r.word ≠ 0x6#4 ∧ r.text ≠ []) := by
    rintro ⟨other, nonempty⟩
    exact nonempty (text_nil_of_op hlen fun h => other (op_of_toNat h))
  rw [decodeRequest, if_neg notReserved, if_neg (not_not.2 hrsv), if_neg text]

/-- A SET_TEXT with its fields and padding 0 decodes (R86). -/
theorem decodeText_of_fields {r : Request} (hlen : r.text.length = textWordsOf r.word)
    (hfields : posOf r.word = 0 ∧ dotOf r.word = false ∧ addrOf r.word = 0) (hpadding : ¬ badPadding r) :
    decodeText r = .ok (.setText ((r.text.flatMap lanesOf).take (byteOf r.word).toNat)) := by
  rw [decodeText, if_neg (not_not.2 hlen)]
  dsimp only
  rw [if_pos ((padding_iff r).2 hpadding), onlyByte, if_pos hfields]

/-- A request that R89 does not call illegal is accepted by its opcode's row, as no RESERVED word. -/
theorem decodeOp_of_legal {r : Request} (hlen : r.text.length = textWordsOf r.word) (legal : ¬ Illegal r) :
    ∃ i, decodeOp r = .ok i ∧ ∀ w, i ≠ .reservedAB w ∧ i ≠ .reservedCF w := by
  unfold Illegal at legal
  dsimp only at legal
  push Not at legal
  obtain ⟨hop, -, hpos, hdot, hbyte, haddr, hpadding⟩ := legal
  unfold decodeOp
  dsimp only
  generalize (opOf r.word).toNat = op at hop hpos hdot hbyte haddr hpadding ⊢
  have pos (h : op ∉ [3, 4, 5]) : posOf r.word = 0 := by
    by_contra other
    exact h (hpos other)
  have dot (h : op ∉ [4, 5]) : dotOf r.word = false := by
    by_contra other
    exact h (hdot (by simpa using other))
  have byte (h : op ∈ [7, 8]) : byteOf r.word = 0 := by
    by_contra other
    exact hbyte other h
  have addr (h : op ≠ 2) : addrOf r.word = 0 := by
    by_contra other
    exact h (haddr other)
  match op, hop with
  | 0, _ | 1, _ | 9, _ =>
    exact ⟨_, if_pos ⟨pos (by decide), dot (by decide), addr (by decide)⟩, fun w => ⟨nofun, nofun⟩⟩
  | 2, _ => exact ⟨_, if_pos ⟨pos (by decide), dot (by decide)⟩, fun w => ⟨nofun, nofun⟩⟩
  | 3, _ => exact ⟨_, if_pos ⟨dot (by decide), addr (by decide)⟩, fun w => ⟨nofun, nofun⟩⟩
  | 4, _ | 5, _ => exact ⟨_, if_pos (addr (by decide)), fun w => ⟨nofun, nofun⟩⟩
  | 6, _ =>
    exact ⟨_, decodeText_of_fields hlen ⟨pos (by decide), dot (by decide), addr (by decide)⟩ (hpadding rfl),
      fun w => ⟨nofun, nofun⟩⟩
  | 7, _ | 8, _ =>
    exact ⟨_, (if_pos (byte (by decide))).trans (if_pos ⟨pos (by decide), dot (by decide), addr (by decide)⟩),
      fun w => ⟨nofun, nofun⟩⟩

/-- Settles O4: the decoder leaves a legal request to its opcode's row (`decodeRequest_eq_decodeOp`), which accepts it
(`decodeOp_of_legal`). -/
theorem legalRequestsDecode : Obligations.LegalRequestsDecode := by
  intro r hlen legal
  obtain ⟨i, hdecode, notReserved⟩ := decodeOp_of_legal hlen legal
  have small : (opOf r.word).toNat < 0xA := by
    by_contra large
    exact legal (.inl (Nat.le_of_not_lt large))
  have rsvZero : rsvOf r.word = 0 := by
    by_contra nonzero
    exact legal (.inr (.inl nonzero))
  have decoded := (decodeRequest_eq_decodeOp small rsvZero hlen).trans hdecode
  exact ⟨i, decoded, isRequest_of_decode decoded, notReserved⟩

/-- Settles O1: each word, in the layer of its width, is evaluated. -/
theorem tableWordsDecodeAsTabled : Obligations.TableWordsDecodeAsTabled := by
  unfold Obligations.TableWordsDecodeAsTabled
  decide

end Sys2Proof.Machine
end

section
/-! PROOFS. The registers that nothing reads (10_state.md R27, R31, R33): two states that differ in them alone end in
states that differ in them alone. -/

namespace Sys2Proof.Machine

/-- Receiving bits has appended its events (10_state.md R26). -/
@[simp] theorem afterReceive_trace (e : List Event) (x : Byte) (b : BitVec 3) (n : Nat) (s : State) :
    (afterReceive e x b n s).trace = s.trace ++ e := by
  simp [afterReceive, State.trace]

/-- The state at the end of a key read under a combination of its four bytes (43_key_scanner.md R160, R163). -/
def afterKeyRead (combine : Byte → Byte → Byte → Byte → Word) (s : State) : State :=
  completed (keyEvents s) .x (receivedFrom s 3) (keyReply combine s) (moved 32 s)

/-- Two states that agree on everything but INTENSITY, the response registers, and the transport's shift value and
counter. -/
structure SameButUnread (s u : State) : Prop where
  trace : u.trace = s.trace
  pins : SamePins s u
  power : u.powerOn = s.powerOn
  initialized : u.initialized = s.initialized
  faultLog : u.faultLog = s.faultLog
  latchAndHost : SameLatchAndHost s u
  samples : SameSamples s u
  seq : u.seq = s.seq
  rspPort : u.rspPort = s.rspPort

/-- The response registers agree. -/
def SameResponseRegisters (s u : State) : Prop :=
  u.rspStatus = s.rspStatus ∧ u.rspResult = s.rspResult ∧ u.rspDiag = s.rspDiag

namespace SameButUnread

variable {s u : State}

/-! ### The shared operations keep the agreement -/

theorem onBus (h : SameButUnread s u) (b : Level) (e : List Event) (d : Level) (v : Byte) :
    SameButUnread (onBus b e d v s) (onBus b e d v u) where
  trace := by rw [onBus_trace, onBus_trace, h.trace]
  pins := ⟨rfl, rfl, rfl⟩
  power := h.power
  initialized := h.initialized
  faultLog := h.faultLog
  latchAndHost := h.latchAndHost
  samples := h.samples
  seq := h.seq
  rspPort := h.rspPort

theorem endRequest (h : SameButUnread s u) (st : BitVec 4) (r : Reply) :
    SameButUnread (endRequest st r s) (endRequest st r u) where
  trace := h.trace
  pins := h.pins
  power := h.power
  initialized := h.initialized
  faultLog := h.faultLog
  latchAndHost := h.latchAndHost
  samples := h.samples
  seq := rfl
  rspPort := by rw [endRequest_rspPort, endRequest_rspPort, h.rspPort]

theorem fail (h : SameButUnread s u) (c : Status) (info : Word) : SameButUnread (fail c info s) (fail c info u) where
  trace := h.trace
  pins := h.pins
  power := h.power
  initialized := h.initialized
  faultLog := by
    obtain ⟨hreq, -⟩ := h.latchAndHost
    rw [fail_faultLog, fail_faultLog, h.faultLog, hreq]
  latchAndHost := h.latchAndHost
  samples := h.samples
  seq := rfl
  rspPort := by rw [fail_rspPort, fail_rspPort, h.rspPort]

theorem completed (h : SameButUnread s u) (e : List Event) (d : Level) (v : Byte) (r : Reply) :
    SameButUnread (completed e d v r s) (completed e d v r u) :=
  (h.onBus .hi e d v).endRequest 0 r

theorem moved (h : SameButUnread s u) (n : Nat) : SameButUnread (moved n s) (moved n u) where
  trace := h.trace
  pins := h.pins
  power := h.power
  initialized := h.initialized
  faultLog := h.faultLog
  latchAndHost := h.latchAndHost
  samples := by
    obtain ⟨hlevels, hcount⟩ := h.samples
    exact ⟨congrArg (List.drop n) hlevels, congrArg (· + n) hcount⟩
  seq := h.seq
  rspPort := h.rspPort

theorem afterReceive (h : SameButUnread s u) (e : List Event) (x : Byte) (b : BitVec 3) (n : Nat) :
    SameButUnread (afterReceive e x b n s) (afterReceive e x b n u) where
  trace := by rw [afterReceive_trace, afterReceive_trace, h.trace]
  pins := by
    obtain ⟨hstb, -, hdio⟩ := h.pins
    exact ⟨hstb, rfl, hdio⟩
  power := h.power
  initialized := h.initialized
  faultLog := h.faultLog
  latchAndHost := h.latchAndHost
  samples := (h.moved n).samples
  seq := h.seq
  rspPort := h.rspPort

/-! ### What a request or a row reads agrees -/

theorem pinsDriven (h : SameButUnread s u) (hp : PinsDriven s) : PinsDriven u := by
  obtain ⟨hstb, hclk, hdio⟩ := h.pins
  rwa [PinsDriven, hstb, hclk, hdio]

theorem font (h : SameButUnread s u) : u.font = s.font := by
  obtain ⟨-, hfont, -⟩ := h.latchAndHost
  exact hfont

theorem samplesOfByte (h : SameButUnread s u) : samplesOfByte u = samplesOfByte s := by
  obtain ⟨hlevels, hcount⟩ := h.samples
  funext j
  simp only [Machine.samplesOfByte, sampleAt, hlevels, hcount]

theorem receivedFrom (h : SameButUnread s u) : receivedFrom u = receivedFrom s := by
  funext j
  simp only [Machine.receivedFrom, h.samplesOfByte]

/-- A key read takes the same samples and gives the same reply. -/
theorem keyRead (h : SameButUnread s u) (combine : Byte → Byte → Byte → Byte → Word) :
    SameButUnread (afterKeyRead combine s) (afterKeyRead combine u) ∧
      SameResponseRegisters (afterKeyRead combine s) (afterKeyRead combine u) := by
  have events : keyEvents u = keyEvents s := by rw [keyEvents, h.samplesOfByte, keyEvents]
  have reply : keyReply combine u = keyReply combine s := by rw [keyReply, h.receivedFrom, keyReply]
  rw [afterKeyRead, afterKeyRead, events, reply, h.receivedFrom]
  exact ⟨(h.moved 32).completed _ _ _ _, rfl, rfl, rfl⟩

/-! ### Requests and rows keep the agreement -/

/-- A request ends alike from states that agree, the response registers included. -/
theorem ends {i : Instr} {t : State} (h : SameButUnread s u) (x : Ends s i t) :
    ∃ v, Ends u i v ∧ SameButUnread t v ∧ SameResponseRegisters t v := by
  have on (ready : s.initialized = true) : u.initialized = true := h.initialized.trans ready
  have same : SameResponseRegisters t t := ⟨rfl, rfl, rfl⟩
  cases x with
  | init b =>
    have sent := (h.onBus .hi (initEvents (clampLevel b)) .lo 0).endRequest 0 {}
    exact ⟨_, .init b, { sent with power := rfl, initialized := rfl }, same⟩
  | rotateBits x => exact ⟨_, .rotateBits x, h.endRequest _ _, same⟩
  | reservedAB w => exact ⟨_, .reservedAB w, h.fail _ _, same⟩
  | reservedCF w => exact ⟨_, .reservedCF w, h.fail _ _, same⟩
  | notReady guarded off => exact ⟨_, .notReady guarded (h.initialized.trans off), h.fail _ _, same⟩
  | sendCommand c ready hp => exact ⟨_, .sendCommand c (on ready) (h.pinsDriven hp), h.completed _ _ _ _, same⟩
  | sendData a d ready hp => exact ⟨_, .sendData a d (on ready) (h.pinsDriven hp), h.completed _ _ _ _, same⟩
  | setLed p c ready hp => exact ⟨_, .setLed p c (on ready) (h.pinsDriven hp), h.completed _ _ _ _, same⟩
  | renderChar p x dot ready hp =>
    exact ⟨_, .renderChar p x dot (on ready) (h.pinsDriven hp), h.completed _ _ _ _, same⟩
  | setDigit p c pattern dot ready hp hc =>
    rw [← h.font] at hc
    exact ⟨_, .setDigit p c pattern dot (on ready) (h.pinsDriven hp) hc, h.completed _ _ _ _, same⟩
  | setDigitUnknown p c dot ready hc =>
    rw [← h.font] at hc
    exact ⟨_, .setDigitUnknown p c dot (on ready) hc, h.fail _ _, same⟩
  | setText x ready hp hk =>
    rw [← h.font] at hk ⊢
    exact ⟨_, .setText x (on ready) (h.pinsDriven hp) hk, h.completed _ _ _ _, rfl, rfl, rfl⟩
  | setTextUnknown x c ready hp hc =>
    rw [← h.font] at hc
    exact ⟨_, .setTextUnknown x c (on ready) (h.pinsDriven hp) hc, (h.onBus _ _ _ _).fail _ _, same⟩
  | getButtons ready hp => exact ⟨_, .getButtons (on ready) (h.pinsDriven hp), h.keyRead combineOverlap⟩
  | getButtons64 ready hp => exact ⟨_, .getButtons64 (on ready) (h.pinsDriven hp), h.keyRead combineConcat⟩

/-- A row of the transport moves the bus alike from states that agree. -/
theorem moves {i : Instr} {t : State} (h : SameButUnread s u) (x : Moves s i t) :
    ∃ v, Moves u i v ∧ SameButUnread t v := by
  obtain ⟨hstb, hclk, hdio⟩ := h.pins
  cases x with
  | sendByte v outClk outDio =>
    refine ⟨_, .sendByte v (by rwa [hclk]) (by rwa [hdio]), ?_⟩
    exact { h.onBus .hi (sentByte v) (levelOf (v.getLsbD 7)) v with pins := ⟨hstb, rfl, rfl⟩ }
  | receiveByte outClk =>
    refine ⟨_, .receiveByte (by rwa [hclk]), ?_⟩
    rw [h.samplesOfByte, h.receivedFrom]
    exact { h.afterReceive (receivedByte (Machine.samplesOfByte s 0)) (Machine.receivedFrom s 0) 7 8 with pins := ⟨hstb, rfl, rfl⟩ }
  | modeAuto hp => exact ⟨_, .modeAuto (h.pinsDriven hp), h.onBus _ _ _ _⟩
  | modeFixed hp => exact ⟨_, .modeFixed (h.pinsDriven hp), h.onBus _ _ _ _⟩
  | displayOn l hp => exact ⟨_, .displayOn l (h.pinsDriven hp), h.onBus _ _ _ _⟩
  | keyScan hp => exact ⟨_, .keyScan (h.pinsDriven hp), h.onBus _ _ _ _⟩
  | addr a hp => exact ⟨_, .addr a (h.pinsDriven hp), h.onBus _ _ _ _⟩

end SameButUnread

/-- Settles O32: replacing the unread registers leaves an agreeing state, from which requests end alike
(`SameButUnread.ends`) and rows of the transport move alike (`SameButUnread.moves`). -/
theorem unreadRegistersDoNotMatter : Obligations.UnreadRegistersDoNotMatter := by
  intro i s t x st res dg sh bc run
  have replaced : SameButUnread s
      { s with intensity := x, rspStatus := st, rspResult := res, rspDiag := dg, shift := sh, bitCount := bc } :=
    ⟨rfl, ⟨rfl, rfl, rfl⟩, rfl, rfl, rfl, ⟨rfl, rfl, rfl, rfl, rfl⟩, ⟨rfl, rfl⟩, rfl, rfl⟩
  cases request : isRequest i with
  | true =>
    obtain ⟨u, ends, same, response⟩ := replaced.ends (ends_of_exec request run)
    exact ⟨u, exec_of_ends ends, same.trace, same.pins, same.power, same.initialized, same.faultLog, same.latchAndHost,
      same.samples, same.seq, same.rspPort, fun _ => response⟩
  | false =>
    obtain ⟨u, moves, same⟩ := replaced.moves (moves_of_exec request run)
    exact ⟨u, exec_of_moves moves, same.trace, same.pins, same.power, same.initialized, same.faultLog, same.latchAndHost,
      same.samples, same.seq, same.rspPort, nofun⟩

end Sys2Proof.Machine
end

section
/-! PROOFS. What one step can do, said once (10_state.md R30, 60_exceptions.md R171): every later fact about `step` is
taken from these cases. -/

namespace Sys2Proof.Machine

/-! ### Requests -/

/-- A request ends in a next state when the block, once initialized, drives its pins (70_reset_and_hazards.md R199). -/
theorem ends_of_ready {i : Instr} {s : State} (request : isRequest i = true)
    (ready : s.initialized = true → PinsDriven s) : ∃ t, Ends s i t := by
  cases on : s.initialized with
  | true =>
    have hp := ready on
    cases i with
    | init b => exact ⟨_, .init b⟩
    | sendCommand c => exact ⟨_, .sendCommand c on hp⟩
    | sendData a d => exact ⟨_, .sendData a d on hp⟩
    | setLed p c => exact ⟨_, .setLed p c on hp⟩
    | renderChar p x dot => exact ⟨_, .renderChar p x dot on hp⟩
    | setDigit p c dot =>
      cases hc : lookup s.font c with
      | none => exact ⟨_, .setDigitUnknown p c dot on hc⟩
      | some pattern => exact ⟨_, .setDigit p c pattern dot on hp hc⟩
    | setText x =>
      cases hk : allKnown s.font (shownChars x) with
      | true => exact ⟨_, .setText x on hp hk⟩
      | false =>
        obtain ⟨c, hc⟩ := firstUnknown_of_not_allKnown hk
        exact ⟨_, .setTextUnknown x c on hp hc⟩
    | getButtons => exact ⟨_, .getButtons on hp⟩
    | getButtons64 => exact ⟨_, .getButtons64 on hp⟩
    | rotateBits x => exact ⟨_, .rotateBits x⟩
    | reservedAB w => exact ⟨_, .reservedAB w⟩
    | reservedCF w => exact ⟨_, .reservedCF w⟩
    | sendByte | receiveByte | modeAuto | modeFixed | keyScan | displayOn | addr => cases request
  | false =>
    cases hop : guardedOpcode i with
    | some op => exact ⟨_, .notReady hop on⟩
    | none =>
      cases i with
      | init b => exact ⟨_, .init b⟩
      | rotateBits x => exact ⟨_, .rotateBits x⟩
      | reservedAB w => exact ⟨_, .reservedAB w⟩
      | reservedCF w => exact ⟨_, .reservedCF w⟩
      | sendByte | receiveByte | modeAuto | modeFixed | keyScan | displayOn | addr => cases request
      | sendCommand | sendData | setLed | renderChar | setDigit | setText | getButtons | getButtons64 => cases hop

/-- Settles O30: an initialized state that meets the invariant drives its pins, so a rule of `Ends` applies
(`ends_of_ready`). -/
theorem noRequestStopsTheMachine : Obligations.NoRequestStopsTheMachine := by
  intro i s inv request
  obtain ⟨t, ends⟩ := ends_of_ready request inv.pinsDriven
  exact ⟨t, exec_of_ends ends⟩

/-- Executing the latched request ends as a request does: an illegal one ends as a RESERVED one, with its word
(60_exceptions.md R172). -/
theorem ends_of_execute {s t : State} (h : execute s = .next t) : ∃ i, Ends s i t := by
  unfold execute at h
  split at h
  · next i decoded => exact ⟨i, ends_of_exec (isRequest_of_decode decoded) h⟩
  · cases h
    exact ⟨_, .reservedAB s.req.word⟩

/-- The latched request ends in a next state when the block, once initialized, drives its pins. -/
theorem execute_of_ready {s : State} (ready : s.initialized = true → PinsDriven s) : ∃ t, execute s = .next t := by
  unfold execute
  split
  · next i decoded =>
    obtain ⟨t, ends⟩ := ends_of_ready (isRequest_of_decode decoded) ready
    exact ⟨t, exec_of_ends ends⟩
  · exact ⟨_, rfl⟩

/-! ### Steps -/

/-- A wire command byte decodes to a row of the transport. -/
theorem notRequest_of_decodeWire {b : Byte} {i : Instr} (h : decodeWire b = .ok i) : isRequest i = false := by
  obtain ⟨-, encoded⟩ := encode_of_decodeWire h
  cases i with
  | sendByte | receiveByte | modeAuto | modeFixed | keyScan | displayOn | addr => rfl
  | init | sendCommand | sendData | setLed | renderChar | setDigit | setText | getButtons | getButtons64 | rotateBits
  | reservedAB | reservedCF => cases encoded

/-- What a step with no reset due can do. -/
inductive Runs (s : State) : State → Prop
  /-- a wire command byte moves the bus -/
  | wire {b : Byte} {rest : List Byte} {i : Instr} {t : State} (hw : s.wire = b :: rest)
      (moves : Moves { s with wire := rest } i t) : Runs s t
  /-- the latched request of a busy block ends -/
  | latched {i : Instr} {t : State} (hw : s.wire = []) (busy : s.seq = .busy) (ends : Ends s i t) : Runs s t
  /-- a request is accepted and ends -/
  | accepted {w : Word} {rest : List Word} {i : Instr} {t : State} (hw : s.wire = []) (idle : s.seq = .idle)
      (port : s.port = w :: rest) (whole : textWordsOf w ≤ rest.length)
      (ends : Ends { s with
        req := ⟨w, rest.take (textWordsOf w)⟩, port := rest.drop (textWordsOf w), seq := .busy } i t) : Runs s t
  /-- the block waits -/
  | waits (hw : s.wire = []) (idle : s.seq = .idle) : Runs s s

/-- Every step with no reset due is one of these. -/
theorem runs_of_runNext {s t : State} (h : runNext s = .next t) : Runs s t := by
  unfold runNext at h
  split at h
  · next b rest hw =>
    unfold executeWire at h
    split at h
    · next i decoded => exact .wire hw (moves_of_exec (notRequest_of_decodeWire decoded) h)
    · cases h
  · next hw =>
    split at h
    · next busy =>
      obtain ⟨i, ends⟩ := ends_of_execute h
      exact .latched hw busy ends
    · next idle =>
      split at h
      · next u accepted =>
        obtain ⟨i, ends⟩ := ends_of_execute h
        obtain ⟨w, rest, port, whole, rfl⟩ := accept_eq accepted
        exact .accepted hw idle port whole ends
      · cases h
        exact .waits hw idle

/-- With no reset due, a step is the block's own. -/
theorem step_noReset {s : State} (hreset : s.resetIn = none) : step s = runNext s := by
  rw [step, hreset]

/-- What a step does under the host's reset: a reset due at once, one that comes nearer while the block waits, and one
pending over the block's own work (70_reset_and_hazards.md R191). -/
inductive Steps (s : State) : State → Prop
  | run {t : State} (hreset : s.resetIn = none) (runs : Runs s t) : Steps s t
  | reset (hreset : s.resetIn = some 0) : Steps s (resetBlock s)
  | pending {n : Nat} {t : State} (hreset : s.resetIn = some (n + 1)) (runs : Runs s t) : Steps s (withResetPending n s t)
  | counts {n : Nat} (hreset : s.resetIn = some (n + 1)) : Steps s { s with resetIn := some n }

/-- Every step is one of these. -/
theorem steps_of_step {s t : State} (h : step s = .next t) : Steps s t := by
  unfold step at h
  split at h
  · next hreset => exact .run hreset (runs_of_runNext h)
  · next hreset =>
    cases h
    exact .reset hreset
  · next n hreset =>
    split at h
    · split at h
      · next u run =>
        cases h
        exact .pending hreset (runs_of_runNext run)
      · cases h
      · cases h
    · cases h
      exact .counts hreset

/-! ### The statements about what a step runs -/

/-- Settles O6: an idle block's whole request by `step_of_whole_request`; the other two read `step` off. -/
theorem stepRunsDecodedInstruction : Obligations.StepRunsDecodedInstruction := by
  refine ⟨fun s r rest i hreset hwire idle port decoded => ?_, fun s i hreset hwire busy decoded => ?_,
    fun s b rest i hreset hwire decoded => ?_⟩
  · rw [step_of_whole_request hreset hwire idle port (length_of_decode decoded)]
    simp only [execute, decoded]
  · simp only [step_noReset hreset, runNext, hwire, busy, execute, decoded]
  · simp only [step_noReset hreset, runNext, hwire, executeWire, decoded]

/-- Too few words on the port are not accepted (30_encoding.md R91). -/
theorem accept_none_of_short {s : State}
    (h : s.port = [] ∨ ∃ w rest, s.port = w :: rest ∧ opOf w = 6 ∧ rest.length < ((byteOf w).toNat + 3) / 4) :
    accept s = none := by
  unfold accept
  rcases h with empty | ⟨w, rest, port, setText, short⟩
  · rw [empty]
  · rw [port]
    have count : textWordsOf w = ((byteOf w).toNat + 3) / 4 := if_pos setText
    exact if_pos (by rwa [count])

/-- Settles O7: nothing is accepted (`accept_none_of_short`), so the step is the waiting one. -/
theorem idleBlockWaitsForAWholeRequest : Obligations.IdleBlockWaitsForAWholeRequest := by
  intro s hreset hwire idle short
  simp only [step_noReset hreset, runNext, hwire, idle, accept_none_of_short short]

end Sys2Proof.Machine
end

section
/-! PROOFS. What the end of an instruction leaves alone, and what a fault records (60_exceptions.md R170 to R177). -/

namespace Sys2Proof.Machine

variable {s t : State} {i : Instr}

/-! ### Frames -/

/-- A request leaves the latch and the host's side alone. -/
theorem Ends.latchAndHost (h : Ends s i t) : SameLatchAndHost s t := by
  cases h <;> exact ⟨rfl, rfl, rfl, rfl, rfl⟩

/-- A row of the transport leaves the latch and the host's side alone. -/
theorem Moves.latchAndHost (h : Moves s i t) : SameLatchAndHost s t := by
  cases h <;> exact ⟨rfl, rfl, rfl, rfl, rfl⟩

/-- A request answers: the response registers, two response words, SEQ to IDLE (10_state.md R30, R31). -/
theorem Ends.responds (h : Ends s i t) : ∃ status result diag, Responds status result diag s t := by
  cases h <;> exact ⟨_, _, _, responds_endRequest _ _ _ rfl⟩

theorem Ends.idle (h : Ends s i t) : t.seq = .idle := by
  obtain ⟨-, -, -, -, -, -, idle, -⟩ := h.responds
  exact idle

/-- A row of the transport answers nothing. -/
theorem Moves.sameResponse (h : Moves s i t) : SameResponse s t := by
  cases h <;> exact ⟨rfl, rfl, rfl, rfl, rfl⟩

/-- A request other than INIT leaves INTENSITY, POWER_ON and INITIALIZED alone (R27, R28, R29). -/
theorem Ends.sameControl (h : Ends s i t) (notInit : ∀ b, i ≠ .init b) : SameControl s t := by
  cases h with
  | init b => exact absurd rfl (notInit b)
  | rotateBits | reservedAB | reservedCF | notReady | sendCommand | sendData | setLed | renderChar | setDigit
  | setDigitUnknown | setText | setTextUnknown | getButtons | getButtons64 => exact ⟨rfl, rfl, rfl⟩

/-- A row of the transport leaves INTENSITY, POWER_ON and INITIALIZED alone. -/
theorem Moves.sameControl (h : Moves s i t) : SameControl s t := by
  cases h <;> exact ⟨rfl, rfl, rfl⟩

/-- A row of the transport records no fault. -/
theorem Moves.faultLog (h : Moves s i t) : t.faultLog = s.faultLog := by
  cases h <;> rfl

/-- Settles O29: requests by `Ends.sameControl`, rows of the transport by `Moves.sameControl`. -/
theorem onlyInitWritesTheControlRegisters : Obligations.OnlyInitWritesTheControlRegisters := by
  intro i s t notInit run
  cases request : isRequest i with
  | true => exact (ends_of_exec request run).sameControl notInit
  | false => exact (moves_of_exec request run).sameControl

/-! ### Faults -/

/-- A fault's code, and the info it records, by the instruction that takes it (60_exceptions.md R170). -/
def FaultCause (s : State) (i : Instr) (status : BitVec 4) (info : Word) : Prop :=
  (status = 1 ∧ ∃ c : Byte, info = c.setWidth 32 ∧ lookup s.font c = none ∧
      ((∃ p dot, i = .setDigit p c dot) ∨ ∃ x, i = .setText x ∧ c ∈ x)) ∨
    (status = 2 ∧ (i = .reservedAB info ∨ i = .reservedCF info)) ∨
    (status = 3 ∧ s.initialized = false ∧ ∃ op, guardedOpcode i = some op ∧ info = op.setWidth 32)

/-- A fault has been recorded and has changed no control register and no host input (R171, R177). -/
def Faulted (s : State) (i : Instr) (t : State) : Prop :=
  ∃ status info, Responds status 0 false s t ∧ t.faultLog = s.faultLog ++ [⟨s.req, status, info⟩] ∧
    SameControl s t ∧ SameLatchAndHost s t ∧ SameSamples s t ∧ FaultCause s i status info

/-- Taking a fault on a state that has moved nothing but the bus records it. -/
theorem faulted_fail {u : State} {c : Status} {info : Word} (hport : u.rspPort = s.rspPort)
    (hlog : u.faultLog = s.faultLog) (control : SameControl s u) (latch : SameLatchAndHost s u) (samples : SameSamples s u)
    (cause : FaultCause s i (statusCode c) info) : Faulted s i (fail c info u) := by
  refine ⟨_, info, responds_endRequest _ {} _ hport, ?_, control, latch, samples, cause⟩
  obtain ⟨hreq, -⟩ := latch
  rw [fail_faultLog, hlog, hreq]

/-- A fault on the state the request began in records it. -/
theorem faulted_fail_atOnce {c : Status} {info : Word} (cause : FaultCause s i (statusCode c) info) :
    Faulted s i (fail c info s) :=
  faulted_fail rfl rfl ⟨rfl, rfl, rfl⟩ ⟨rfl, rfl, rfl, rfl, rfl⟩ ⟨rfl, rfl⟩ cause

/-- The first unknown code of a layout buffer is a character of the text and not in the font (42_display_encoder.md
R145). -/
theorem firstUnknown_mem {font : List (Byte × Byte)} {x : List Byte} {c : Byte}
    (h : firstUnknown font (layout (removeDots x)) = some c) : c ∈ x ∧ lookup font c = none := by
  have unknown := List.find?_some h
  rw [Bool.and_eq_true, bne_iff_ne, Option.isNone_iff_eq_none] at unknown
  obtain ⟨notSpace, missing⟩ := unknown
  have shown := (mem_layout (List.mem_of_find?_eq_some h)).resolve_right notSpace
  exact ⟨List.mem_of_mem_filter (List.mem_of_mem_take shown), missing⟩

/-- A request ends OK with FAULT_LOG as it was, or has taken a fault. -/
theorem Ends.ok_or_faulted (h : Ends s i t) : (t.rspStatus = 0 ∧ t.faultLog = s.faultLog) ∨ Faulted s i t := by
  cases h with
  | init | rotateBits | sendCommand | sendData | setLed | renderChar | setDigit | setText | getButtons | getButtons64 =>
    exact .inl ⟨rfl, rfl⟩
  | reservedAB w => exact .inr (faulted_fail_atOnce (.inr (.inl ⟨rfl, .inl rfl⟩)))
  | reservedCF w => exact .inr (faulted_fail_atOnce (.inr (.inl ⟨rfl, .inr rfl⟩)))
  | notReady guarded off => exact .inr (faulted_fail_atOnce (.inr (.inr ⟨rfl, off, _, guarded, rfl⟩)))
  | setDigitUnknown p c dot on missing =>
    exact .inr (faulted_fail_atOnce (.inl ⟨rfl, c, rfl, missing, .inl ⟨p, dot, rfl⟩⟩))
  | setTextUnknown x c on hp hc =>
    obtain ⟨inText, missing⟩ := firstUnknown_mem hc
    exact .inr (faulted_fail rfl rfl ⟨rfl, rfl, rfl⟩ ⟨rfl, rfl, rfl, rfl, rfl⟩ ⟨rfl, rfl⟩
      (.inl ⟨rfl, c, rfl, missing, .inr ⟨x, rfl, inText⟩⟩))

/-- Settles O28: SEQ by `Ends.idle`, the rest by `Ends.ok_or_faulted`. -/
theorem faultEntryRecordsAndChangesNothingElse : Obligations.FaultEntryRecordsAndChangesNothingElse := by
  intro i s t request run
  have ends := ends_of_exec request run
  exact ⟨ends.idle, ends.ok_or_faulted⟩

/-! ### Whole requests -/

/-- A request has at most 64 text words (30_encoding.md R86, R91). -/
theorem textWordsOf_le (w : Word) : textWordsOf w ≤ 64 := by
  have bound := (byteOf w).isLt
  unfold textWordsOf
  split <;> omega

/-- Settles O8: the request is accepted (`step_of_whole_request`), is executed to a next state (`execute_of_ready`), and
what that leaves is what the end of a request leaves (`Ends.responds`, `Ends.latchAndHost`). -/
theorem everyRequestRunsToItsEnd : Obligations.EveryRequestRunsToItsEnd := by
  intro s w rest inv hreset hport whole
  obtain ⟨t, run⟩ := execute_of_ready
    (s := { s with req := ⟨w, rest.take (textWordsOf w)⟩, port := rest.drop (textWordsOf w), seq := .busy }) inv.pinsDriven
  obtain ⟨i, ends⟩ := ends_of_execute run
  obtain ⟨hreq, -, hport', -, -⟩ := ends.latchAndHost
  obtain ⟨status, result, diag, -, -, -, idle, answered⟩ := ends.responds
  refine ⟨t, ?_, hreq, hport', textWordsOf_le w, idle, _, _, answered⟩
  rw [← run]
  exact step_of_whole_request (r := ⟨w, rest.take (textWordsOf w)⟩) hreset inv.wireEmpty inv.idle
    (by rw [hport, List.take_append_drop]) (List.length_take_of_le whole)

end Sys2Proof.Machine
end

section
/-! PROOFS. What goes on the wires: the frame shapes (30_encoding.md R72), the event counts (70_reset_and_hazards.md R201)
and the pins (10_state.md R22). -/

namespace Sys2Proof.Machine

/-! ### Segments -/

/-- The events are those of a sequence of well-sized segments (R72). -/
def Segmented (events : List Event) : Prop :=
  ∃ segments : List Segment, (∀ g ∈ segments, g.wellSized) ∧ events = segments.flatMap Segment.events

theorem segmented_nil : Segmented [] := ⟨[], by simp, rfl⟩

theorem segmented_append {e f : List Event} (he : Segmented e) (hf : Segmented f) : Segmented (e ++ f) := by
  obtain ⟨gs, sized, rfl⟩ := he
  obtain ⟨hs, sized', rfl⟩ := hf
  refine ⟨gs ++ hs, fun g hg => ?_, List.flatMap_append.symm⟩
  exact (List.mem_append.1 hg).elim (sized g) (sized' g)

theorem segmented_of_segment {g : Segment} (sized : g.wellSized) : Segmented g.events :=
  ⟨[g], by simpa using sized, by simp⟩

/-- Segmented events for each member of a list are segmented. -/
theorem segmented_flatMap {f : Nat → List Event} (h : ∀ r, Segmented (f r)) (l : List Nat) : Segmented (l.flatMap f) := by
  induction l with
  | nil => exact segmented_nil
  | cons r l ih => exact segmented_append (h r) ih

theorem segmented_command (c : Byte) : Segmented (sentFrame [c]) := segmented_of_segment (g := .command c) trivial

theorem segmented_write (a : RamAddr) (d : Byte) : Segmented (writeFrames a d) :=
  segmented_append (segmented_command 0x44) (segmented_of_segment (g := .write a d) trivial)

theorem segmented_init (level : BitVec 3) : Segmented (initEvents level) :=
  segmented_append (segmented_append (segmented_append (segmented_of_segment (g := .config) trivial)
    (segmented_command 0x40)) (segmented_command _)) (segmented_of_segment (g := .clear) trivial)

theorem segmented_textStart (t : List Byte) : Segmented (textStartEvents t) := by
  refine segmented_append ?_ (segmented_write 14 (dotPlane t))
  split
  · exact segmented_of_segment (g := .diagnostic) trivial
  · exact segmented_nil

theorem segmented_key (s : State) : Segmented (keyEvents s) :=
  segmented_of_segment
    (g := .key (samplesOfByte s 0) (samplesOfByte s 1) (samplesOfByte s 2) (samplesOfByte s 3)) ⟨rfl, rfl, rfl, rfl⟩

/-- A request has appended segments to TRACE. -/
theorem Ends.segmented {s t : State} {i : Instr} (h : Ends s i t) : ∃ e, Segmented e ∧ t.trace = s.trace ++ e := by
  have unchanged : s.trace = s.trace ++ [] := (List.append_nil _).symm
  cases h with
  | rotateBits | reservedAB | reservedCF | notReady | setDigitUnknown => exact ⟨_, segmented_nil, unchanged⟩
  | init b => exact ⟨_, segmented_init _, onBus_trace .hi _ .lo 0⟩
  | sendCommand c => exact ⟨_, segmented_command c, completed_trace ..⟩
  | sendData | setLed | renderChar => exact ⟨_, segmented_write _ _, completed_trace ..⟩
  | setDigit => exact ⟨_, segmented_flatMap (fun _ => segmented_write _ _) _, completed_trace ..⟩
  | setText x =>
    exact ⟨_, segmented_append (segmented_textStart x) (segmented_flatMap (fun _ => segmented_write _ _) _),
      completed_trace ..⟩
  | setTextUnknown x c => exact ⟨_, segmented_textStart x, by rw [fail_trace, onBus_trace]⟩
  | getButtons | getButtons64 => exact ⟨_, segmented_key s, completed_trace (s := moved 32 s) ..⟩

/-- Settles O36: from a state that meets the invariant a step waits or ends a request (`Runs`), and a request appends
segments (`Ends.segmented`). -/
theorem onlyTheFourFrameShapesAreSent : Obligations.OnlyTheFourFrameShapesAreSent := by
  intro s t inv hreset run
  have segmented : ∃ e, Segmented e ∧ t.trace = s.trace ++ e := by
    cases runs_of_runNext ((step_noReset hreset).symm.trans run) with
    | wire hw => cases inv.wireEmpty.symm.trans hw
    | latched hw busy => cases inv.idle.symm.trans busy
    | accepted hw idle port whole ends => exact ends.segmented
    | waits => exact ⟨[], segmented_nil, (List.append_nil _).symm⟩
  obtain ⟨e, ⟨segments, sized, rfl⟩, trace⟩ := segmented
  exact ⟨segments, sized, trace⟩

/-! ### Event counts -/

@[simp] theorem length_sentByte (v : Byte) : (sentByte v).length = 24 := rfl

@[simp] theorem length_sentFrame (bytes : List Byte) : (sentFrame bytes).length = 24 * bytes.length + 2 := by
  simp [sentFrame, List.length_flatMap, Nat.mul_comm]

@[simp] theorem length_receivedByte (bits : List Bool) : (receivedByte bits).length = 3 * bits.length + 2 := by
  simp [receivedByte, List.length_flatMap, receivedCell, Nat.mul_comm]

@[simp] theorem length_writeFrames (a : RamAddr) (d : Byte) : (writeFrames a d).length = 76 := by
  simp [writeFrames]

@[simp] theorem length_keyEvents (s : State) : (keyEvents s).length = 130 := by
  simp [keyEvents, keyFrameEvents, samplesOfByte, List.range_succ]

@[simp] theorem length_initEvents (level : BitVec 3) : (initEvents level).length = 467 := by
  simp [initEvents, configEvents]

@[simp] theorem length_textStartEvents (t : List Byte) :
    (textStartEvents t).length = 76 + if dotIsDropped t = true then 1 else 0 := by
  unfold textStartEvents
  split <;> simp

@[simp] theorem length_digitEvents (pattern : Byte) (p : Pos) (dot : Bool) : (digitEvents pattern p dot).length = 456 := by
  simp [digitEvents, List.length_flatMap]

@[simp] theorem length_glyphEvents (font : List (Byte × Byte)) (t : List Byte) : (glyphEvents font t).length = 532 := by
  simp [glyphEvents, List.length_flatMap]

/-- Before INIT a guarded request appends no event (60_exceptions.md R173). -/
theorem eventCount_notReady {i : Instr} {op : BitVec 4} (guarded : guardedOpcode i = some op) : eventCount 3 i = 0 := by
  cases i with
  | sendCommand | sendData | setLed | renderChar | setDigit | setText | getButtons | getButtons64 => rfl
  | init | rotateBits | reservedAB | reservedCF | sendByte | receiveByte | modeAuto | modeFixed | keyScan | displayOn
  | addr => cases guarded

/-- A completed request has appended the events it says. -/
theorem eventCount_completed {e : List Event} {i : Instr} (count : e.length = eventCount 0 i) (d : Level) (v : Byte)
    (r : Reply) (s : State) :
    (completed e d v r s).trace.length = s.trace.length + eventCount (completed e d v r s).rspStatus i := by
  rw [completed_trace, List.length_append, count]
  rfl

/-- A request has appended as many events as its kind and status say. -/
theorem Ends.eventCount {s t : State} {i : Instr} (h : Ends s i t) :
    t.trace.length = s.trace.length + eventCount t.rspStatus i := by
  cases h with
  | rotateBits | reservedAB | reservedCF | setDigitUnknown => rfl
  | notReady guarded => exact congrArg (s.trace.length + ·) (eventCount_notReady guarded).symm
  | init b => exact eventCount_completed (i := .init b) (length_initEvents _) .lo 0 {} s
  | sendCommand c => exact eventCount_completed (length_sentFrame [c]) ..
  | sendData | setLed | renderChar => exact eventCount_completed (length_writeFrames ..) ..
  | setDigit => exact eventCount_completed (length_digitEvents ..) ..
  | setText x =>
    refine eventCount_completed ?_ ..
    rw [List.length_append, length_textStartEvents, length_glyphEvents]
    cases hx : dotIsDropped x <;> simp [Machine.eventCount, hx]
  | setTextUnknown x c =>
    rw [fail_trace, onBus_trace, List.length_append, length_textStartEvents]
    simp [Machine.eventCount, statusCode]
  | getButtons | getButtons64 => exact eventCount_completed (length_keyEvents s) _ _ _ (moved 32 s)

/-- Settles O31 (`Ends.eventCount`). -/
theorem requestsHaveTheirEventCounts : Obligations.RequestsHaveTheirEventCounts :=
  fun _ _ _ _ request run => (ends_of_exec request run).eventCount

/-! ### Pins -/

/-- Events have been appended to TRACE, and the pins are what the events make of the pins before. -/
def FollowsTrace (s t : State) : Prop :=
  ∃ events, t.trace = s.trace ++ events ∧ t.stb = pinAfter .stb s.stb events ∧ t.clk = pinAfter .clk s.clk events ∧
    t.dio = pinAfter .dio s.dio events

theorem followsTrace_refl (s : State) : FollowsTrace s s := ⟨[], (List.append_nil _).symm, rfl, rfl, rfl⟩

/-- Bus activity from driven pins follows its events when they leave the pins where it does. -/
theorem followsTrace_onBus {s : State} {a d : Level} {e : List Event} (hp : PinsDriven s) (drives : Drives e a d)
    (v : Byte) : FollowsTrace s (onBus a e d v s) :=
  ⟨e, onBus_trace a e d v, pins_onBus hp drives⟩

theorem followsTrace_completed {s : State} {d : Level} {e : List Event} (hp : PinsDriven s) (drives : Drives e .hi d)
    (v : Byte) (r : Reply) : FollowsTrace s (completed e d v r s) :=
  followsTrace_onBus hp drives v

theorem drives_digit (pattern : Byte) (p : Pos) (dot : Bool) :
    Drives (digitEvents pattern p dot) .hi (levelOf ((digitByte pattern 5 p dot).getLsbD 7)) :=
  drives_writes (fun r => BitVec.ofNat 4 (2 * r)) (fun r => digitByte pattern r p dot) 5 [0, 1, 2, 3, 4]

theorem drives_glyphs (font : List (Byte × Byte)) (t : List Byte) :
    Drives (glyphEvents font t) .hi (levelOf ((rot (textRow font t 6)).getLsbD 7)) :=
  drives_writes (fun r => BitVec.ofNat 4 (2 * r)) (fun r => rot (textRow font t r)) 6 [0, 1, 2, 3, 4, 5]

/-- INIT's events drive the pins, whatever their direction was: its configuration comes first (R120). -/
theorem pinAfter_init (level : BitVec 3) (p : Pin) (st : PinState) : pinAfter p st (initEvents level) =
    match p with | .stb => ⟨.out, .hi⟩ | .clk => ⟨.out, .hi⟩ | .dio => ⟨.out, .lo⟩ := by
  have configured : (pinAfter p st configEvents).dir = .out := by cases p <;> rfl
  have frames := drives_append (drives_append (drives_frame [] 0x40) (drives_frame [] (0x88 ||| level.setWidth 8)))
    (drives_frame (0xC0 :: List.replicate 15 0) 0)
  rw [initEvents, List.append_assoc, List.append_assoc, ← List.append_assoc (sentFrame _), pinAfter_append]
  exact frames p _ configured

/-- A request's pins follow its events. -/
theorem Ends.followsTrace {s t : State} {i : Instr} (h : Ends s i t) : FollowsTrace s t := by
  cases h with
  | rotateBits | reservedAB | reservedCF | notReady | setDigitUnknown => exact followsTrace_refl s
  | init b =>
    exact ⟨_, onBus_trace .hi _ .lo 0, (pinAfter_init _ .stb _).symm, (pinAfter_init _ .clk _).symm,
      (pinAfter_init _ .dio _).symm⟩
  | sendCommand c on hp => exact followsTrace_completed hp (drives_frame [] c) ..
  | sendData a d on hp => exact followsTrace_completed hp (drives_write a d) ..
  | setLed p c on hp => exact followsTrace_completed hp (drives_write _ c) ..
  | renderChar p x dot on hp => exact followsTrace_completed hp (drives_write _ (withDot x dot)) ..
  | setDigit p c pattern dot on hp => exact followsTrace_completed hp (drives_digit pattern p dot) ..
  | setText x on hp => exact followsTrace_completed hp (drives_append (drives_textStart x) (drives_glyphs s.font x)) ..
  | setTextUnknown x c on hp => exact followsTrace_onBus hp (drives_textStart x) (dotPlane x)
  | getButtons on hp | getButtons64 on hp => exact followsTrace_completed (s := moved 32 s) hp (drives_key s) ..

/-- A sent byte leaves STB as it was, whatever its direction. -/
theorem pinAfter_stb_sentByte (v : Byte) (st : PinState) : pinAfter .stb st (sentByte v) = st := rfl

/-- DISPLAY_ON's byte leaves DIO high (30_encoding.md R76). -/
theorem displayOnByte_bit7 (l : BitVec 3) : (0x88 ||| l.setWidth 8 : Byte).getLsbD 7 = true := by
  revert l; decide

/-- ADDR's byte leaves DIO high (R77). -/
theorem addrByte_bit7 (a : RamAddr) : (0xC0 ||| a.setWidth 8 : Byte).getLsbD 7 = true := by
  revert a; decide

/-- A row's pins follow its events. -/
theorem Moves.followsTrace {s t : State} {i : Instr} (h : Moves s i t) : FollowsTrace s t := by
  have opening (v : Byte) : Drives (.wr .stb false :: sentByte v) .lo (levelOf (v.getLsbD 7)) := by
    simpa using drives_open [] v
  cases h with
  | sendByte v hc hd =>
    exact ⟨_, onBus_trace .hi _ (levelOf (v.getLsbD 7)) v, (pinAfter_stb_sentByte v _).symm, (pinAfter_sentByte .clk v _ hc).symm,
      (pinAfter_sentByte .dio v _ hd).symm⟩
  | receiveByte hc =>
    refine ⟨_, afterReceive_trace _ (receivedFrom s 0) 7 8 s, (pinAfter_receivedByte .stb _ rfl _).symm, ?_,
      (pinAfter_receivedByte .dio _ rfl _).symm⟩
    rw [pinAfter_receivedByte .clk _ rfl, hc]
    rfl
  | modeAuto hp => exact followsTrace_onBus hp (drives_frame [] 0x40) _
  | modeFixed hp => exact followsTrace_onBus hp (drives_frame [] 0x44) _
  | displayOn l hp =>
    have drives := drives_frame [] (0x88 ||| l.setWidth 8)
    rw [displayOnByte_bit7] at drives
    exact followsTrace_onBus hp drives _
  | keyScan hp => exact followsTrace_onBus hp (opening 0x42) _
  | addr a hp =>
    have drives := opening (0xC0 ||| a.setWidth 8)
    rw [addrByte_bit7] at drives
    exact followsTrace_onBus hp drives _

/-- Settles O33: requests by `Ends.followsTrace`, rows of the transport by `Moves.followsTrace`. -/
theorem pinsAreWhatTheTraceMakesOfThem : Obligations.PinsAreWhatTheTraceMakesOfThem := by
  intro i s t run
  cases request : isRequest i with
  | true => exact (ends_of_exec request run).followsTrace
  | false => exact (moves_of_exec request run).followsTrace

end Sys2Proof.Machine
end

section
/-! PROOFS. What every step keeps: the lists it only appends to, the font, and the machine's invariant (10_state.md R23,
R26, R32); and what a reset leaves (70_reset_and_hazards.md R190, R191). -/

namespace Sys2Proof.Machine

variable {s t : State} {i : Instr}

/-! ### Lists that only grow -/

/-- TRACE, FAULT_LOG and the words returned have only been appended to. -/
def OnlyAppends (s t : State) : Prop :=
  s.trace <+: t.trace ∧ s.faultLog <+: t.faultLog ∧ s.rspPort <+: t.rspPort

theorem Ends.onlyAppends (h : Ends s i t) : OnlyAppends s t := by
  obtain ⟨events, trace, -⟩ := h.followsTrace
  obtain ⟨status, result, diag, -, -, -, -, answered⟩ := h.responds
  refine ⟨⟨events, trace.symm⟩, ?_, ⟨_, answered.symm⟩⟩
  rcases h.ok_or_faulted with ⟨-, log⟩ | ⟨status, info, -, log, -⟩
  · exact ⟨[], by rw [log, List.append_nil]⟩
  · exact ⟨_, log.symm⟩

theorem Moves.onlyAppends (h : Moves s i t) : OnlyAppends s t := by
  obtain ⟨events, trace, -⟩ := h.followsTrace
  obtain ⟨-, -, -, -, unanswered⟩ := h.sameResponse
  exact ⟨⟨events, trace.symm⟩, ⟨[], by rw [h.faultLog, List.append_nil]⟩, ⟨[], by rw [unanswered, List.append_nil]⟩⟩

/-- Settles O34: every case of `Runs` only appends. -/
theorem stepOnlyAppends : Obligations.StepOnlyAppends := by
  intro s t hreset run
  cases runs_of_runNext ((step_noReset hreset).symm.trans run) with
  | wire hw moves => exact moves.onlyAppends
  | latched hw busy ends => exact ends.onlyAppends
  | accepted hw idle port whole ends => exact ends.onlyAppends
  | waits => exact ⟨List.prefix_rfl, List.prefix_rfl, List.prefix_rfl⟩

/-! ### The font -/

theorem Runs.font (h : Runs s t) : t.font = s.font := by
  cases h with
  | wire hw moves =>
    obtain ⟨-, font, -⟩ := moves.latchAndHost
    exact font
  | latched hw busy ends =>
    obtain ⟨-, font, -⟩ := ends.latchAndHost
    exact font
  | accepted hw idle port whole ends =>
    obtain ⟨-, font, -⟩ := ends.latchAndHost
    exact font
  | waits => rfl

/-- A pending reset either lands inside the step or comes nearer (70_reset_and_hazards.md R191). -/
theorem withResetPending_cases (n : Nat) (s t : State) :
    withResetPending n s t = cutByReset n s t ∨ ∃ m, withResetPending n s t = { t with resetIn := some m } := by
  unfold withResetPending
  dsimp only
  split
  · exact .inl rfl
  · exact .inr ⟨_, rfl⟩

/-- Settles O35: the step's own work by `Runs.font`; a reset leaves the font alone wherever it lands. -/
theorem noStepWritesTheFont : Obligations.NoStepWritesTheFont := by
  intro s t run
  cases steps_of_step run with
  | run hreset runs => exact runs.font
  | reset => rfl
  | @pending n u hreset runs =>
    rcases withResetPending_cases n s u with cut | ⟨m, later⟩
    · rw [cut]
      rfl
    · rw [later]
      exact runs.font
  | counts => rfl

/-! ### The invariant without SEQ and the response -/

/-- What the invariant says of the wire queue, the pins, POWER_ON and TRACE: it holds while a request is accepted, too. -/
structure Quiet (s : State) : Prop where
  wireEmpty : s.wire = []
  atRest : s.initialized = true → ∃ l, BusAtRest l s
  untouched : s.initialized = false → s.stb = .reset ∧ s.clk = .reset ∧ s.dio = .reset
  power : s.powerOn = s.initialized
  traceAtRest : TraceAtRest s

/-- What the invariant says of the response registers (10_state.md R31, 60_exceptions.md R170, R177). -/
def LegalResponse (s : State) : Prop :=
  s.rspStatus.toNat ≤ 3 ∧ (s.rspDiag = true → s.rspStatus = 0 ∧ s.rspResult = 0) ∧ (s.rspStatus ≠ 0 → s.rspResult = 0)

theorem Inv.quiet (h : Inv s) : Quiet s := ⟨h.wireEmpty, h.atRest, h.untouched, h.power, h.traceAtRest⟩

theorem inv_of_quiet (idle : s.seq = .idle) (quiet : Quiet s) (legal : LegalResponse s) : Inv s := by
  obtain ⟨status, diag, faultResult⟩ := legal
  exact { quiet with idle, status, diag, faultResult }

/-- The invariant does not speak of a reset to come. -/
theorem Inv.withResetIn (h : Inv s) (r : Option Nat) : Inv { s with resetIn := r } :=
  ⟨h.idle, h.wireEmpty, h.atRest, h.untouched, h.power, h.status, h.diag, h.faultResult, h.traceAtRest⟩

namespace Quiet

theorem accept (h : Quiet s) (r : Request) (port : List Word) : Quiet { s with req := r, port := port, seq := .busy } :=
  ⟨h.wireEmpty, h.atRest, h.untouched, h.power, h.traceAtRest⟩

theorem endRequest (h : Quiet s) (st : BitVec 4) (r : Reply) : Quiet (endRequest st r s) :=
  ⟨h.wireEmpty, h.atRest, h.untouched, h.power, h.traceAtRest⟩

theorem fail (h : Quiet s) (c : Status) (info : Word) : Quiet (fail c info s) :=
  ⟨h.wireEmpty, h.atRest, h.untouched, h.power, h.traceAtRest⟩

theorem moved (h : Quiet s) (n : Nat) : Quiet (moved n s) :=
  ⟨h.wireEmpty, h.atRest, h.untouched, h.power, h.traceAtRest⟩

/-- Whole frames on driven pins leave the bus at rest. -/
theorem onBus (h : Quiet s) (on : s.initialized = true) (hp : PinsDriven s) {e : List Event} (keeps : Keeps e) (d : Level)
    (v : Byte) : Quiet (onBus .hi e d v s) where
  wireEmpty := h.wireEmpty
  atRest _ := ⟨d, rfl, rfl, rfl⟩
  untouched off := nomatch on.symm.trans off
  power := h.power
  traceAtRest := by
    obtain ⟨-, -, hdio⟩ := hp
    exact traceAtRest_append h.traceAtRest hdio keeps (onBus_trace .hi e d v) rfl

theorem completed (h : Quiet s) (on : s.initialized = true) (hp : PinsDriven s) {e : List Event} (keeps : Keeps e)
    (d : Level) (v : Byte) (r : Reply) : Quiet (completed e d v r s) :=
  (h.onBus on hp keeps d v).endRequest 0 r

/-- INIT leaves the bus at rest, whatever the pins were: its configuration comes first (41_command_protocol.md R120). -/
theorem init (h : Quiet s) (b : Byte) : Quiet
    { Machine.onBus .hi (initEvents (clampLevel b)) .lo 0 s with
      intensity := clampLevel b, powerOn := true, initialized := true } where
  wireEmpty := h.wireEmpty
  atRest _ := ⟨.lo, rfl, rfl, rfl⟩
  untouched := nofun
  power := rfl
  traceAtRest := by
    obtain ⟨closed, -⟩ := h.traceAtRest
    obtain ⟨m, p, rest, -⟩ := observe_initEvents closed (clampLevel b)
    have trace := onBus_trace (s := s) .hi (initEvents (clampLevel b)) .lo 0
    rw [← observeFrom_append, ← trace] at rest
    exact ⟨rest.frame, rest.dir⟩

/-- After a reset the pins are untouched and TRACE is empty (10_state.md R36). -/
theorem reset (s : State) : Quiet (resetBlock s) := ⟨rfl, nofun, fun _ => ⟨rfl, rfl, rfl⟩, rfl, rfl, rfl⟩

end Quiet

/-! ### Requests keep the invariant -/

theorem keeps_write (a : RamAddr) (d : Byte) : Keeps (writeFrames a d) := fun _ _ h => ⟨_, observe_writeFrames h a d⟩

theorem keeps_key (s : State) : Keeps (keyEvents s) := fun _ _ h =>
  ⟨_, observe_keyFrame h (samplesOfByte s 0) (samplesOfByte s 1) (samplesOfByte s 2) (samplesOfByte s 3)⟩

theorem Ends.quiet (h : Ends s i t) (quiet : Quiet s) : Quiet t := by
  cases h with
  | init b => exact (quiet.init b).endRequest 0 {}
  | rotateBits x => exact quiet.endRequest _ _
  | reservedAB | reservedCF | notReady | setDigitUnknown => exact quiet.fail _ _
  | sendCommand c on hp => exact quiet.completed on hp (keeps_sentFrame _) _ _ _
  | sendData a d on hp => exact quiet.completed on hp (keeps_write _ _) _ _ _
  | setLed p c on hp => exact quiet.completed on hp (keeps_write _ _) _ _ _
  | renderChar p x dot on hp => exact quiet.completed on hp (keeps_write _ _) _ _ _
  | setDigit p c pattern dot on hp hc => exact quiet.completed on hp (keeps_writes _ _ _) _ _ _
  | setText x on hp hk => exact quiet.completed on hp (keeps_append (keeps_textStart x) (keeps_writes _ _ _)) _ _ _
  | setTextUnknown x c on hp hc => exact (quiet.onBus on hp (keeps_textStart x) _ _).fail _ _
  | getButtons on hp | getButtons64 on hp => exact (quiet.moved 32).completed on hp (keeps_key s) _ _ _

theorem statusCode_le (c : Status) : (statusCode c).toNat ≤ 3 := by
  cases c <;> decide

/-- A request ends with a status the block produces; a fault, and an OK with the diagnostic, have result 0. -/
theorem Ends.legalResponse (h : Ends s i t) : LegalResponse t := by
  cases h with
  | setText x => exact ⟨Nat.zero_le 3, fun _ => ⟨rfl, rfl⟩, fun fault => absurd rfl fault⟩
  | init | rotateBits | sendCommand | sendData | setLed | renderChar | setDigit | getButtons | getButtons64 =>
    exact ⟨Nat.zero_le 3, nofun, fun fault => absurd rfl fault⟩
  | reservedAB | reservedCF | notReady | setDigitUnknown | setTextUnknown =>
    exact ⟨statusCode_le _, nofun, fun _ => rfl⟩

/-- A request that ends leaves the invariant. -/
theorem Ends.inv (h : Ends s i t) (quiet : Quiet s) : Inv t :=
  inv_of_quiet h.idle (h.quiet quiet) h.legalResponse

/-! ### Steps keep the invariant -/

theorem Runs.inv (h : Runs s t) (inv : Inv s) : Inv t := by
  cases h with
  | wire hw => cases inv.wireEmpty.symm.trans hw
  | latched hw busy ends => exact ends.inv inv.quiet
  | accepted hw idle port whole ends => exact ends.inv (inv.quiet.accept _ _)
  | waits => exact inv

/-- A block that has been reset meets the invariant. -/
theorem inv_resetBlock (s : State) : Inv (resetBlock s) :=
  inv_of_quiet rfl (.reset s) ⟨Nat.zero_le 3, nofun, fun fault => absurd rfl fault⟩

/-- Settles O38: `State.reset` is a block that has been reset (`inv_resetBlock`). -/
theorem resetMeetsTheInvariant : Obligations.ResetMeetsTheInvariant := inv_resetBlock State.reset

/-- Settles O39: the step's own work keeps the invariant (`Runs.inv`), and a reset makes it hold wherever it lands
(`inv_resetBlock`). -/
theorem stepKeepsTheInvariant : Obligations.StepKeepsTheInvariant := by
  intro s t inv run
  cases steps_of_step run with
  | run hreset runs => exact runs.inv inv
  | reset => exact inv_resetBlock s
  | @pending n u hreset runs =>
    rcases withResetPending_cases n s u with cut | ⟨m, later⟩
    · rw [cut]
      exact inv_resetBlock _
    · rw [later]
      exact (runs.inv inv).withResetIn _
  | counts => exact inv.withResetIn _

/-! ### Reset -/

/-- A block that has been reset has the spec's reset values (R36). -/
theorem blockReset_resetBlock (s : State) : BlockReset (resetBlock s) :=
  ⟨rfl, rfl, rfl, rfl, rfl, rfl, rfl, rfl, rfl, rfl, rfl⟩

/-- Settles O40: a reset that is due is the whole step. -/
theorem resetWhenIdle : Obligations.ResetWhenIdle := by
  intro s due
  refine ⟨resetBlock s, ?_, blockReset_resetBlock s, rfl, rfl, rfl, ⟨rfl, rfl⟩, rfl, rfl⟩
  rw [step, due]

/-- A reset that lands among the events of the block's work cuts it (R191). -/
theorem step_of_cut {u : State} {n : Nat} {events : List Event} (hreset : s.resetIn = some (n + 1))
    (work : hasWork s = true) (run : runNext s = .next u) (trace : u.trace = s.trace ++ events)
    (inside : n ≤ events.length) : step s = .next (cutByReset n s u) := by
  have count : u.trace.length - s.trace.length = events.length := by
    rw [trace, List.length_append, Nat.add_sub_cancel_left]
  have lands : withResetPending n s u = cutByReset n s u := by
    rw [withResetPending, count]
    exact if_pos inside
  simp only [step, hreset, work, run, lands, if_true]

/-- Settles O41: the step is the cut one (`step_of_cut`), which leaves a block that has been reset and the samples of the
events before the cut. -/
theorem resetInsideARequestLeavesNoResponse : Obligations.ResetInsideARequestLeavesNoResponse := by
  intro s u n events hreset work run trace inside
  have done : (u.trace.drop s.trace.length).take n = events.take n := by rw [trace, List.drop_left]
  refine ⟨_, step_of_cut hreset work run trace inside, blockReset_resetBlock _, rfl, rfl, rfl, ?_⟩
  rw [← done]
  exact ⟨rfl, rfl⟩

end Sys2Proof.Machine
end

section
/-! PROOFS. What the rows of the transport and the requests do, each in full (40_transport.md, 41_command_protocol.md,
42_display_encoder.md). -/

namespace Sys2Proof.Machine

variable {s : State}

/-! ### The transport -/

/-- Settles O9: the one way SEND_BYTE moves the bus, `Moves.sendByte`. -/
theorem sendByteShiftsOutLsbFirst : Obligations.SendByteShiftsOutLsbFirst := by
  intro v s outClk outDio
  have moves := Moves.sendByte v outClk outDio
  exact ⟨_, exec_of_moves moves, onBus_trace .hi _ (levelOf (v.getLsbD 7)) v, rfl, rfl, rfl, moves.sameResponse,
    moves.sameControl, moves.faultLog, moves.latchAndHost, rfl, rfl⟩

/-- Settles O10: the one way RECEIVE_BYTE moves the bus, `Moves.receiveByte`. -/
theorem receiveByteAssemblesLsbFirst : Obligations.ReceiveByteAssemblesLsbFirst := by
  intro s outClk
  have moves := Moves.receiveByte outClk
  exact ⟨_, exec_of_moves moves, afterReceive_trace _ (receivedFrom s 0) 7 8 s, rfl, ⟨rfl, rfl⟩, rfl, rfl, rfl,
    moves.sameResponse, moves.sameControl, moves.faultLog, moves.latchAndHost⟩

/-- Settles O11: each row's move is its command frame. -/
theorem commandRowsSendOneFrame : Obligations.CommandRowsSendOneFrame := by
  intro i c s row hp
  have moves : Moves s i (onBus .hi (sentFrame [c]) (levelOf (c.getLsbD 7)) c s) := by
    rcases row with ⟨rfl, rfl⟩ | ⟨rfl, rfl⟩ | ⟨l, rfl, rfl⟩
    · exact .modeAuto hp
    · exact .modeFixed hp
    · rw [displayOnByte_bit7]
      exact .displayOn l hp
  exact ⟨_, exec_of_moves moves, onBus_trace .., ⟨rfl, rfl, rfl⟩, moves.sameResponse, moves.sameControl, moves.faultLog,
    moves.latchAndHost, rfl, rfl⟩

/-- Settles O12: each row's move opens its frame. -/
theorem openingRowsLeaveTheFrameOpen : Obligations.OpeningRowsLeaveTheFrameOpen := by
  intro i c s row hp
  have moves : Moves s i (onBus .lo (.wr .stb false :: sentByte c) (levelOf (c.getLsbD 7)) c s) := by
    rcases row with ⟨rfl, rfl⟩ | ⟨a, rfl, rfl⟩
    · exact .keyScan hp
    · rw [addrByte_bit7]
      exact .addr a hp
  exact ⟨_, exec_of_moves moves, onBus_trace .., rfl, rfl, rfl, moves.sameResponse, moves.sameControl, moves.faultLog,
    moves.latchAndHost, rfl, rfl⟩

/-! ### Undriven pins (70_reset_and_hazards.md R199) -/

theorem openFrame_of_stb_undriven (c : Byte) (h : s.stb.dir ≠ .out) :
    openFrame c s = .error (.model (.pinNotOutput .stb)) := by
  rw [openFrame, beginFrame, pinWrite_undriven .stb false h]
  rfl

theorem cmd_of_stb_undriven (c : Byte) (h : s.stb.dir ≠ .out) : cmd c s = .error (.model (.pinNotOutput .stb)) := by
  rw [cmd, openFrame_of_stb_undriven c h]
  rfl

/-- SEND_BYTE stops where its first bit-cell stops. -/
theorem sendByte_of_first_cell {v : Byte} {e : Stop} (h : sendBit v { s with shift := v } 0 = .error e) :
    sendByte v s = .error e := by
  rw [sendByte, show List.range 8 = 0 :: [1, 2, 3, 4, 5, 6, 7] from rfl, List.foldlM_cons, h]
  rfl

theorem sendBit_of_clk_undriven (v : Byte) (i : Nat) (h : s.clk.dir ≠ .out) :
    sendBit v s i = .error (.model (.pinNotOutput .clk)) := by
  simp [sendBit, pinWrite, State.pin, h, bind, Except.bind]

theorem sendBit_of_dio_undriven (v : Byte) (i : Nat) (outClk : s.clk.dir = .out) (h : s.dio.dir ≠ .out) :
    sendBit v s i = .error (.model (.pinNotOutput .dio)) := by
  simp [sendBit, pinWrite, State.pin, outClk, h, bind, Except.bind]

/-- Settles O13: a command row stops at STB, SEND_BYTE and RECEIVE_BYTE at CLK, and SEND_BYTE with CLK driven at DIO. -/
theorem undrivenPinIsNeverWritten : Obligations.UndrivenPinIsNeverWritten := by
  refine ⟨?_, fun v s hclk => ⟨?_, ?_⟩, fun v s outClk hdio => ?_⟩
  · rintro i s (rfl | rfl | ⟨l, rfl⟩ | rfl | ⟨a, rfl⟩) hstb
    · exact congrArg concludeMicro (cmd_of_stb_undriven _ hstb)
    · exact congrArg concludeMicro (cmd_of_stb_undriven _ hstb)
    · exact congrArg concludeMicro (cmd_of_stb_undriven _ hstb)
    · exact congrArg concludeMicro (openFrame_of_stb_undriven _ hstb)
    · exact congrArg concludeMicro (openFrame_of_stb_undriven _ hstb)
  · exact congrArg concludeMicro (sendByte_of_first_cell (sendBit_of_clk_undriven v 0 hclk))
  · exact congrArg concludeMicro (receiveByte_undriven hclk)
  · exact congrArg concludeMicro (sendByte_of_first_cell (sendBit_of_dio_undriven v 0 outClk hdio))

/-! ### Requests that complete -/

/-- A request whose rule ends it on the bus completes with its events, its reply and no sample taken. -/
theorem exec_completed {i : Instr} {e : List Event} {d : Level} {v : Byte} {r : Reply}
    (ends : Ends s i (completed e d v r s)) :
    ∃ t, exec i s = .next t ∧ Completed e d r.result r.diag s t ∧ SameSamples s t :=
  ⟨_, exec_of_ends ends, completed_onBus e d v r, rfl, rfl⟩

/-- Settles O14 (`Ends.sendCommand`). -/
theorem sendCommandSendsItsByte : Obligations.SendCommandSendsItsByte :=
  fun c _ on hp => exec_completed (.sendCommand c on hp)

/-- Settles O15 (`Ends.sendData`). -/
theorem sendDataWritesItsByte : Obligations.SendDataWritesItsByte :=
  fun a d _ on hp => exec_completed (.sendData a d on hp)

theorem toNat_ledAddress (p : Pos) : (ledAddress p).toNat = 2 * p.toNat + 1 := by
  revert p; decide

theorem toNat_rowAddress (p : Pos) : (rowAddress p).toNat = 2 * p.toNat := by
  revert p; decide

/-- Settles O17 (`Ends.setLed`). -/
theorem setLedWritesItsOddAddress : Obligations.SetLedWritesItsOddAddress :=
  fun p c _ on hp => ⟨toNat_ledAddress p, exec_completed (.setLed p c on hp)⟩

/-- Settles O18 (`Ends.renderChar`): the byte sent is the pattern with the dot (`withDot_eq`). -/
theorem renderCharWritesItsEvenAddress : Obligations.RenderCharWritesItsEvenAddress := by
  intro p x dot s on hp
  rw [← withDot_eq, ← withDot_seven]
  exact ⟨toNat_rowAddress p, exec_completed (.renderChar p x dot on hp)⟩

/-- Settles O19: ROTATE_BITS ends without an event, and rotation swaps the nibbles (`rot_eq_swap`). -/
theorem rotateBitsReturnsTheSwappedByte : Obligations.RotateBitsReturnsTheSwappedByte := by
  intro x s
  rw [← rot_eq_swap]
  exact ⟨_, exec_of_ends (.rotateBits x), rfl, ⟨rfl, rfl, rfl⟩, responds_endRequest 0 ⟨(rot x).setWidth 32, false⟩ s rfl,
    ⟨rfl, rfl, rfl⟩, rfl, ⟨rfl, rfl, rfl, rfl, rfl⟩, ⟨rfl, rfl⟩, ⟨rfl, rfl⟩⟩

/-- Settles O20 (`Ends.setDigit`). -/
theorem setDigitWritesSixRows : Obligations.SetDigitWritesSixRows :=
  fun p c pattern dot _ on hp hc => exec_completed (.setDigit p c pattern dot on hp hc)

/-- Settles O21 (`Ends.setDigitUnknown`). -/
theorem setDigitOfAnUnknownCodeFaults : Obligations.SetDigitOfAnUnknownCodeFaults :=
  fun p c dot s on hc => ⟨_, exec_of_ends (.setDigitUnknown p c dot on hc), faultedAtOnce_fail .unknownChar _ s⟩

/-- Settles O22 (`Ends.setText`): rotation puts the rows in their net placement (`glyphEvents_eq`, `rot_textRow`). -/
theorem setTextWritesEightRowPlanes : Obligations.SetTextWritesEightRowPlanes := by
  intro x s on hp hk
  rw [← glyphEvents_eq, ← rot_textRow]
  exact exec_completed (.setText x on hp hk)

/-- Settles O26: either RESERVED row takes the fault at once (`faultedAtOnce_fail`). -/
theorem reservedOpcodesFault : Obligations.ReservedOpcodesFault := fun w s =>
  ⟨⟨_, exec_of_ends (.reservedAB w), faultedAtOnce_fail .illegalRequest w s⟩,
    ⟨_, exec_of_ends (.reservedCF w), faultedAtOnce_fail .illegalRequest w s⟩⟩

/-! ### The two key combinations -/

/-- A byte shifted left by at most three places fits in eleven bits. -/
theorem toNat_shiftedByte_lt (k : Byte) {n : Nat} (hn : n ≤ 3) : (k.setWidth 32 <<< n).toNat < 2 ^ 11 := by
  have bound := k.isLt
  have small : k.toNat * 2 ^ n ≤ 255 * 2 ^ 3 := Nat.mul_le_mul (by omega) (Nat.pow_le_pow_right (by omega) hn)
  rw [BitVec.toNat_shiftLeft, BitVec.toNat_setWidth, Nat.shiftLeft_eq]
  exact (Nat.mod_le _ _).trans_lt (by rw [Nat.mod_eq_of_lt (by omega)]; omega)

/-- GET_BUTTONS' overlapping OR fits in eleven bits (43_key_scanner.md R161). -/
theorem combineOverlap_le (k0 k1 k2 k3 : Byte) : (combineOverlap k0 k1 k2 k3).toNat ≤ 0x7FF := by
  have zero := toNat_shiftedByte_lt k0 (n := 0) (by omega)
  rw [BitVec.shiftLeft_zero] at zero
  have below : (combineOverlap k0 k1 k2 k3).toNat < 2 ^ 11 := by
    simp only [combineOverlap, BitVec.toNat_or]
    exact Nat.or_lt_two_pow (Nat.or_lt_two_pow (Nat.or_lt_two_pow zero (toNat_shiftedByte_lt k1 (by omega)))
      (toNat_shiftedByte_lt k2 (by omega))) (toNat_shiftedByte_lt k3 (by omega))
  omega

/-- GET_BUTTONS64's result is the word of a base-256 number (R162). -/
theorem combineConcat_eq_ofNat (k0 k1 k2 k3 : Byte) : combineConcat k0 k1 k2 k3 =
    BitVec.ofNat 32 (k0.toNat + k1.toNat * 256 + k2.toNat * 256 ^ 2 + k3.toNat * 256 ^ 3) := by
  simp [combineConcat, BitVec.ofNat_add, BitVec.ofNat_mul]

/-- The base-256 number of four bytes fits in a word. -/
theorem toNat_combineConcat (k0 k1 k2 k3 : Byte) : (combineConcat k0 k1 k2 k3).toNat =
    k0.toNat + k1.toNat * 256 + k2.toNat * 256 ^ 2 + k3.toNat * 256 ^ 3 := by
  have b0 := k0.isLt
  have b1 := k1.isLt
  have b2 := k2.isLt
  have b3 := k3.isLt
  rw [combineConcat_eq_ofNat, BitVec.toNat_ofNat]
  exact Nat.mod_eq_of_lt (by omega)

/-- Settles O25 (`combineOverlap_le`, `combineConcat_eq_or`, `toNat_combineConcat`). -/
theorem keyCombinationsKeepTheirBytes : Obligations.KeyCombinationsKeepTheirBytes := fun k0 k1 k2 k3 =>
  ⟨combineOverlap_le k0 k1 k2 k3, combineConcat_eq_or k0 k1 k2 k3, toNat_combineConcat k0 k1 k2 k3⟩

end Sys2Proof.Machine
end

section
/-! PROOFS. What SET_TEXT computes (42_display_encoder.md R141, R144, R146). -/

namespace Sys2Proof.Machine

/-! ### The dot byte -/

theorem dotByteAt_negative {p : Int} (h : p < 0) : dotByteAt p = .dropped := if_pos h

/-- Shifting a byte's number right is shifting the byte. -/
theorem natCast_shiftRight {m : Nat} (hm : m < 256) (n : Nat) : ((m >>> n : Nat) : Byte) = BitVec.ofNat 8 m >>> n := by
  have small : m >>> n < 256 := (Nat.shiftRight_le m n).trans_lt hm
  refine BitVec.eq_of_toNat_eq ?_
  rw [BitVec.natCast_eq_ofNat, BitVec.toNat_ofNat, BitVec.toNat_ushiftRight, BitVec.toNat_ofNat, Nat.mod_eq_of_lt small,
    Nat.mod_eq_of_lt hm]

theorem dotByteAt_low {p : Int} (h0 : 0 ≤ p) (h3 : p ≤ 3) : dotByteAt p = .placed (8 >>> p.toNat) := by
  rw [dotByteAt, if_neg (by omega), if_pos h3, natCast_shiftRight (by omega)]

theorem dotByteAt_high {p : Int} (h4 : 4 ≤ p) (h7 : p ≤ 7) : dotByteAt p = .placed (128 >>> (p - 4).toNat) := by
  rw [dotByteAt, if_neg (by omega), if_neg (by omega), if_pos h7, natCast_shiftRight (by omega)]

/-- A dot position of the table places a byte, which rotates to `0x80 >> p` (R141, R146). -/
theorem dotByteAt_placed {p : Int} (h0 : 0 ≤ p) (h7 : p ≤ 7) :
    ∃ b, dotByteAt p = .placed b ∧ rot b = 0x80#8 >>> p.toNat := by
  have placed : ∃ b, dotByteAt p = .placed b := by
    rcases lt_or_ge 3 p with high | low
    · exact ⟨_, dotByteAt_high high h7⟩
    · exact ⟨_, dotByteAt_low h0 low⟩
  obtain ⟨b, hb⟩ := placed
  obtain ⟨rotated, -⟩ := dotByteAt_cases p h7
  rw [hb, if_neg (by omega)] at rotated
  exact ⟨b, hb, rotated⟩

/-- Under the STRIPPED basis a last character that is the only '.' has dot position 8, past the table (R141). -/
theorem dotByteOn_stripped_last {u : List Byte} (h : dotCode ∉ u) :
    dotByteOn .stripped (u ++ [dotCode]) = .beyond := by
  have other (c : Byte) (hc : c ∈ u) : c ≠ dotCode := fun same => h (same ▸ hc)
  have index : (u ++ [dotCode]).findIdx? (fun c => c == dotCode) = some u.length := by
    have none : u.findIdx? (fun c => c == dotCode) = none := by
      simpa [List.findIdx?_eq_none_iff] using other
    rw [List.findIdx?_append, none]
    simp
  have kept : removeDots (u ++ [dotCode]) = u := by
    have all : u.filter (fun c => c != dotCode) = u := by
      simpa [List.filter_eq_self] using other
    rw [removeDots, List.filter_append, all]
    simp
  simp only [dotByteOn, index, dotLength, kept]
  rw [show (u.length : Int) + (8 - u.length) = 8 by omega]
  rfl

/-- Settles O43: a text's dot byte is the table's at its position (`dotByte_some`), which is at most 7 (`realPos_le`). -/
theorem dotByteRotatesToItsPosition : Obligations.DotByteRotatesToItsPosition := by
  refine ⟨fun t none => ?_, fun t d found => ?_, fun u noDot => dotByteOn_stripped_last noDot⟩
  · simp only [dotByte, dotByteOn, none]
  · have le := realPos_le found
    rw [dotByte_some found]
    exact ⟨le, dotByteAt_negative, dotByteAt_low, fun high => dotByteAt_high high le, fun h0 => dotByteAt_placed h0 le⟩

/-! ### The rows -/

/-- Settles O46: a row that computes is the byte of its characters' bits (`rowFrom_bits`), and rotation places those
(`bits_layout`). -/
theorem rotatedRowsAreTheNetPlacement : Obligations.RotatedRowsAreTheNetPlacement := by
  intro font u r row computed
  have placed := bits_layout ((u.take 8).map (bitAt font r)) (by simp) _ (map_bitAt_reversedPadded font r u)
  rw [List.length_map] at placed
  rw [rowFrom_bits font r _ 0 row computed, placedRow_bits, layout_eq_rotate,
    List.rotate_eq_drop_append_take (by simp), List.map_append, List.map_drop, List.map_take]
  exact placed

end Sys2Proof.Machine
end

section
/-! PROOFS. The chip's RAM and the commands on the chip, as the reference observer sees them (20_memory.md R61 to R66). -/

namespace Sys2Proof.Machine

variable {s t : State}

/-! ### The RAM as a canonical list -/

/-- An event keeps the RAM canonical: only a frame that closes acts on the chip (R62). -/
theorem observeEvent_wf {o : Observer} (h : o.chip.ram.wf) (e : Event) : (observeEvent o e).chip.ram.wf := by
  have edge : (risingEdge o).chip = o.chip := by
    unfold risingEdge
    cases o.dioDir <;> rfl
  rcases e with ⟨p, d⟩ | ⟨p, v⟩ | ⟨p, v⟩ | _
  · cases p <;> exact h
  · cases p with
    | stb =>
      cases v with
      | false => exact h
      | true =>
        unfold observeEvent
        dsimp only
        split
        · exact applyFrame_wf _ _ h
        · exact h
    | clk =>
      cases v with
      | false => exact h
      | true =>
        unfold observeEvent
        dsimp only
        split
        · rwa [edge]
        · exact h
    | dio => exact h
  · cases p <;> exact h
  · exact h

theorem observeFrom_wf {o : Observer} (h : o.chip.ram.wf) (trace : List Event) : (observeFrom o trace).chip.ram.wf := by
  induction trace generalizing o with
  | nil => exact h
  | cons e trace ih => exact ih (observeEvent_wf h e)

/-- Settles O47, by induction on the trace (`observeFrom_wf`). -/
theorem observerKeepsRamCanonical : Obligations.ObserverKeepsRamCanonical :=
  fun trace _ canonical => observeFrom_wf canonical trace

theorem readByte_head (a : Nat) (v : Byte) (rest : Memory) : readByte ((a, v) :: rest) a = some v := if_pos rfl

theorem readByte_tail {a x : Nat} (v : Byte) (rest : Memory) (h : x ≠ a) :
    readByte ((a, v) :: rest) x = readByte rest x := if_neg h

/-- Two canonical memories that read alike have no first address below the other's. -/
theorem not_lt_of_reads_alike {a b : Nat} {v w : Byte} {m n : Memory} (hn : ∀ x ∈ n, b < x.1)
    (alike : ∀ x, readByte ((a, v) :: m) x = readByte ((b, w) :: n) x) : ¬ a < b := by
  intro lt
  have below : ∀ x ∈ (b, w) :: n, a < x.1 := by
    intro x hx
    rcases List.mem_cons.1 hx with rfl | hx
    · exact lt
    · exact lt.trans (hn x hx)
  have read := (readByte_head a v m).symm.trans (alike a)
  rw [readByte_below _ a below] at read
  cases read

/-- Rising lists that read alike are equal (log entry 22). -/
theorem eq_of_reads_alike {m n : Memory} (hm : m.Pairwise (fun x y => x.1 < y.1))
    (hn : n.Pairwise (fun x y => x.1 < y.1)) (alike : ∀ x, readByte m x = readByte n x) : m = n := by
  induction m generalizing n with
  | nil =>
    cases n with
    | nil => rfl
    | cons cell n =>
      obtain ⟨b, w⟩ := cell
      cases (alike b).trans (readByte_head b w n)
  | cons cell m ih =>
    obtain ⟨a, v⟩ := cell
    cases n with
    | nil => cases (readByte_head a v m).symm.trans (alike a)
    | cons cell n =>
      obtain ⟨b, w⟩ := cell
      rw [List.pairwise_cons] at hm hn
      obtain ⟨lowM, sortedM⟩ := hm
      obtain ⟨lowN, sortedN⟩ := hn
      obtain rfl : a = b := Nat.le_antisymm (Nat.le_of_not_lt (not_lt_of_reads_alike lowM fun x => (alike x).symm))
        (Nat.le_of_not_lt (not_lt_of_reads_alike lowN alike))
      have byte := (readByte_head a v m).symm.trans ((alike a).trans (readByte_head a w n))
      obtain rfl := Option.some.inj byte
      refine congrArg _ (ih sortedM sortedN fun x => ?_)
      rcases eq_or_ne x a with rfl | other
      · rw [readByte_below m x lowM, readByte_below n x lowN]
      · rw [← readByte_tail v m other, alike x, readByte_tail v n other]

/-- Settles O48: a write of a byte by `readByte_putByte`, of UNKNOWN by `readByte_forgetByte`; equality by
`eq_of_reads_alike`. -/
theorem ramReadsWhatWasWritten : Obligations.RamReadsWhatWasWritten := by
  refine ⟨fun m a d x canonical => ?_, fun m n hm hn alike => ?_⟩
  · obtain ⟨sorted, -⟩ := canonical
    cases d with
    | none => exact readByte_forgetByte m sorted a.toNat x
    | some v => exact readByte_putByte m a.toNat x v
  · obtain ⟨sortedM, -⟩ := hm
    obtain ⟨sortedN, -⟩ := hn
    exact eq_of_reads_alike sortedM sortedN alike

/-! ### Events appended after an initialized state that meets the invariant -/

/-- What events that keep the observer between frames make of the chip. -/
theorem observe_of_rest {e : List Event} {s0 c : Chip} (trace : t.trace = s.trace ++ e)
    (rest : Rest (observeFrom (observeFrom (.start s0) s.trace) e) c) : observe t.trace s0 = c := by
  rw [trace, observe_append]
  exact rest.chip

/-- A display-RAM write that completes reaches the chip (R65). -/
theorem observe_completed_write (inv : Inv s) (on : s.initialized = true) (a : RamAddr) (d : Byte) (l : Level) (v : Byte)
    (r : Reply) (s0 : Chip) :
    observe (completed (writeFrames a d) l v r s).trace s0 = chipWrite a d (observe s.trace s0) :=
  observe_of_rest (completed_trace ..) (observe_writeFrames (inv.rest on s0) a d)

/-- The three requests that write one byte end with its write. -/
theorem exec_displayWrite {i : Instr} {a : RamAddr} {d : Byte} (hp : PinsDriven s) (on : s.initialized = true)
    (hi : i = .sendData a d ∨ (∃ p, i = .setLed p d ∧ a = ledAddress p) ∨
      ∃ p x dot, i = .renderChar p x dot ∧ a = rowAddress p ∧ d = (x ||| if dot then 0x80 else 0)) :
    exec i s = .next (completed (writeFrames a d) (levelOf (d.getLsbD 7)) d {} s) := by
  rcases hi with rfl | ⟨p, rfl, rfl⟩ | ⟨p, x, dot, rfl, rfl, rfl⟩
  · exact exec_of_ends (.sendData a d on hp)
  · exact exec_of_ends (.setLed p d on hp)
  · rw [← withDot_eq]
    exact exec_of_ends (.renderChar p x dot on hp)

/-- Settles O50: each request ends with one write (`exec_displayWrite`), which the chip takes as `chipWrite` says. -/
theorem displayWritesReachOneRamByte : Obligations.DisplayWritesReachOneRamByte := by
  intro i a d s s0 inv on hi
  refine ⟨_, exec_displayWrite (inv.pinsDriven on) on hi, ?_⟩
  rw [observe_completed_write inv on]
  exact ⟨readByte_chipWrite a d _, rfl, rfl, rfl, rfl, rfl⟩

/-- Settles O53: the request ends after its row-plane 7 write (`Ends.setTextUnknown`, `observe_textStart`). -/
theorem faultedSetTextWritesRowPlaneSevenOnly : Obligations.FaultedSetTextWritesRowPlaneSevenOnly := by
  intro x c s s0 inv on unknown
  refine ⟨_, exec_of_ends (.setTextUnknown x c on (inv.pinsDriven on) unknown), rfl, fun a => ?_⟩
  rw [fail_trace, observe_of_rest (onBus_trace ..) (observe_textStart (inv.rest on s0) x)]
  exact readByte_chipWrite 14 (dotPlane x) _ a

/-- A frame of one command byte leaves the RAM alone, whatever the command (R64, R65). -/
theorem applyFrame_command_ram (b : Byte) (c : Chip) : (applyFrame ⟨[], [some b], []⟩ c).ram = c.ram := by
  unfold applyFrame
  dsimp only
  split
  · unfold dataCommand
    dsimp only
    split
    · rfl
    · split <;> rfl
  · unfold displayControl
    split <;> rfl
  · unfold addressCommand
    split <;> rfl
  · rfl

/-- Settles O54: the one frame is a command frame (`applyFrame_command_ram`). -/
theorem sendCommandLeavesTheRamAlone : Obligations.SendCommandLeavesTheRamAlone := by
  intro c s s0 inv on
  refine ⟨_, exec_of_ends (.sendCommand c on (inv.pinsDriven on)), ?_⟩
  rw [observe_of_rest (completed_trace ..) (observe_sentFrame (inv.rest on s0) [c])]
  exact applyFrame_command_ram c _

/-- An opened frame has done nothing to the chip yet (R62; log entry 13). -/
theorem observe_opening {o : Observer} {c : Chip} (h : Rest o c) (b : Byte) :
    (observeFrom o (.wr .stb false :: sentByte b)).chip = c := by
  have opened := (observe_sentByte (observe_open h) b).chip
  rwa [← observeFrom_append] at opened

/-- Settles O55: the closed command frames act as `applyFrame` says, the opened ones not yet (`observe_opening`). -/
theorem commandRowsReachTheChip : Obligations.CommandRowsReachTheChip := by
  intro s s0 inv on
  have hp := inv.pinsDriven on
  have rest := inv.rest on s0
  refine ⟨⟨_, exec_of_moves (.modeAuto hp), ?_⟩, ⟨_, exec_of_moves (.modeFixed hp), ?_⟩,
    fun l => ⟨_, exec_of_moves (.displayOn l hp), ?_⟩, ⟨_, exec_of_moves (.keyScan hp), ?_⟩,
    fun a => ⟨_, exec_of_moves (.addr a hp), ?_⟩⟩
  · exact (observe_of_rest (onBus_trace ..) (observe_sentFrame rest [0x40])).trans (applyFrame_modeAuto _)
  · exact (observe_of_rest (onBus_trace ..) (observe_sentFrame rest [0x44])).trans (applyFrame_modeFixed _)
  · exact (observe_of_rest (onBus_trace ..) (observe_sentFrame rest [0x88 ||| l.setWidth 8])).trans
      (applyFrame_displayOn l _)
  · rw [onBus_trace, observe_append, observe_opening rest]
  · rw [onBus_trace, observe_append, observe_opening rest]

/-! ### Key reads -/

/-- The observer's byte of eight sampled bits is the block's (R66, 40_transport.md R104). -/
theorem byteOfBits_eight (b0 b1 b2 b3 b4 b5 b6 b7 : Bool) :
    byteOfBits [b0, b1, b2, b3, b4, b5, b6, b7] = byteOfSamples [b0, b1, b2, b3, b4, b5, b6, b7] := by
  revert b0 b1 b2 b3 b4 b5 b6 b7; decide

/-- Eight samples are the observer's next key byte. -/
theorem bytesOfSamples_append (s : State) (j : Nat) (rest : List Bool) :
    bytesOfSamples (samplesOfByte s j ++ rest) = receivedFrom s j :: bytesOfSamples rest := by
  rw [receivedFrom, samplesOfByte_eq, ← byteOfBits_eight]
  rfl

/-- A key frame sets MODE to AUTO and appends its key bytes (R64, R66). -/
theorem applyFrame_key (samples : List Bool) (c : Chip) : applyFrame ⟨[], [some 0x42], samples⟩ c =
    { c with mode := some .auto, keysRead := c.keysRead ++ [bytesOfSamples samples] } := by
  simp [applyFrame, dataCommand, errIf]

/-- A key read's frame on the chip: the four bytes received (R66). -/
theorem observe_keyEvents {o : Observer} {c : Chip} (h : Rest o c) (s : State) :
    Rest (observeFrom o (keyEvents s)) { c with
      mode := some .auto
      keysRead := c.keysRead ++ [[receivedFrom s 0, receivedFrom s 1, receivedFrom s 2, receivedFrom s 3]] } := by
  have bytes : bytesOfSamples (samplesOfByte s 0 ++ samplesOfByte s 1 ++ samplesOfByte s 2 ++ samplesOfByte s 3) =
      [receivedFrom s 0, receivedFrom s 1, receivedFrom s 2, receivedFrom s 3] := by
    rw [← List.append_nil (_ ++ samplesOfByte s 3)]
    simp only [List.append_assoc, bytesOfSamples_append]
    rfl
  rw [← bytes, ← applyFrame_key]
  exact observe_keyFrame h _ _ _ _

/-- Settles O56: both reads send the same frame (`observe_keyEvents`). -/
theorem keyReadsAreRecordedByTheObserver : Obligations.KeyReadsAreRecordedByTheObserver := by
  rintro i s s0 (rfl | rfl) inv on
  · exact ⟨_, exec_of_ends (.getButtons on (inv.pinsDriven on)),
      observe_of_rest (completed_trace (s := moved 32 s) ..) (observe_keyEvents (inv.rest on s0) s)⟩
  · exact ⟨_, exec_of_ends (.getButtons64 on (inv.pinsDriven on)),
      observe_of_rest (completed_trace (s := moved 32 s) ..) (observe_keyEvents (inv.rest on s0) s)⟩

/-! ### A repeated write -/

/-- Writing the same byte to the same address twice leaves the RAM as once (R53). -/
theorem chipWrite_chipWrite_ram (a : RamAddr) (d : Byte) (c : Chip) :
    (chipWrite a d (chipWrite a d c)).ram = (chipWrite a d c).ram :=
  putByte_putByte c.ram a.toNat d

/-- From an initialized state that meets the invariant SEND_DATA writes the chip and leaves such a state. -/
theorem observe_sendData {a : RamAddr} {d : Byte} (inv : Inv s) (on : s.initialized = true)
    (run : exec (.sendData a d) s = .next t) (s0 : Chip) :
    observe t.trace s0 = chipWrite a d (observe s.trace s0) ∧ Inv t ∧ t.initialized = true := by
  have ends := Ends.sendData a d on (inv.pinsDriven on)
  obtain rfl := Host.Outcome.next.inj ((exec_of_ends ends).symm.trans run)
  exact ⟨observe_completed_write inv on a d _ d {} s0, ends.inv inv.quiet, on⟩

/-- Settles O57: both runs write the chip (`observe_sendData`), the second what the first wrote. -/
theorem repeatedDisplayWriteIsIdempotent : Obligations.RepeatedDisplayWriteIsIdempotent := by
  intro a d s t u s0 inv on _ first second
  obtain ⟨once, inv', on'⟩ := observe_sendData inv on first s0
  obtain ⟨twice, -⟩ := observe_sendData inv' on' second s0
  rw [twice, once, chipWrite_chipWrite_ram]

end Sys2Proof.Machine
end

section
/-! PROOFS. The assembler (30_encoding.md R93). -/

namespace Sys2Proof.Machine

/-- Settles O58: each line is evaluated. -/
theorem assemblerExpandsPseudoForms : Obligations.AssemblerExpandsPseudoForms := by
  unfold Obligations.AssemblerExpandsPseudoForms
  decide

end Sys2Proof.Machine
end
